-- ==== Sys2Proof/Word.lean ====
section
/-! DEFINITION. The two word types of the CPP-8 core (spec/00_scope.md R7: every value is unsigned, bit 0 is the
least significant bit). -/
namespace Sys2Proof

/-- A data value: registers `V`, timers, memory cells (spec/10_state.md R21, R27, R29). -/
abbrev Byte := BitVec 8

/-- An instruction word, `INSN_BYTES` bytes (spec/30_encoding.md R70). `PC`, `I` and a stack entry have its width, by the
parameters of Config.lean. -/
abbrev Word := BitVec 16

end Sys2Proof
end

