-- ==== Sys2Proof/Config.lean ====
section
/-! DEFINITION. The parameters of the core (spec/00_scope.md R6), each a field of a configuration record, and the two
free values. The parameters whose value this hardware fixes are the fields of `Parameters`, with their values in
`Config.hw`: every type and definition of the model reads them there (notes/assumptions/15.md). `FONT` and `WRAP_X`, which
differ from one machine to the next, are the fields of `Config`, which `Machine.State` carries unchanged, so that a
statement about every state holds for every choice of them (notes/assumptions/5.md, 6.md). -/
namespace Sys2Proof

/-- The parameters of spec/00_scope.md R6 that this hardware fixes. -/
structure Parameters where
  /-- `MEM_SIZE`: bytes of memory. -/
  memSize : Nat
  /-- `FONT_BASE`: first address of the font region. -/
  fontBase : Nat
  /-- `FONT_SIZE`: bytes of the font region. -/
  fontSize : Nat
  /-- The bytes of one glyph of the font. -/
  glyphBytes : Nat
  /-- `PROG_BASE`: load address and reset `PC`. -/
  progBase : Nat
  /-- `NREGS`: data registers. -/
  nregs : Nat
  /-- `I_WIDTH`. -/
  iWidth : Nat
  /-- `PC_WIDTH`. -/
  pcWidth : Nat
  /-- `STACK_CAPACITY`: entries of the call stack. -/
  stackCapacity : Nat
  /-- `STACK_ENTRY_WIDTH`. -/
  stackEntryWidth : Nat
  /-- `DISPLAY_WIDTH`, in pixels. -/
  displayWidth : Nat
  /-- `DISPLAY_HEIGHT`, in pixels. -/
  displayHeight : Nat
  /-- `NKEYS`: logical keys. -/
  nkeys : Nat
  /-- `TIMER_WIDTH`. -/
  timerWidth : Nat
  /-- `INSN_BYTES`: bytes per instruction. -/
  insnBytes : Nat
  deriving DecidableEq, Repr

/-- The value column of spec/00_scope.md R6. It is reducible, so that a type over a parameter is the type over its value. -/
@[reducible] def Config.hw : Parameters where
  memSize := 4096
  fontBase := 0x000
  fontSize := 80
  glyphBytes := 5
  progBase := 0x200
  nregs := 16
  iWidth := 16
  pcWidth := 16
  stackCapacity := 16
  stackEntryWidth := 16
  displayWidth := 64
  displayHeight := 32
  nkeys := 16
  timerWidth := 8
  insnBytes := 2

/-- A register number: every value of a 4-bit register field names a register (spec/10_state.md R21). -/
abbrev Reg := Fin Config.hw.nregs
/-- An index of the call stack (spec/10_state.md R26). -/
abbrev StackIndex := Fin Config.hw.stackCapacity
/-- A key number (spec/10_state.md R30). -/
abbrev Key := Fin Config.hw.nkeys
/-- A row of the display (spec/10_state.md R28). -/
abbrev Row := Fin Config.hw.displayHeight
/-- A column of the display (spec/10_state.md R28). -/
abbrev Column := Fin Config.hw.displayWidth

/-- The address lies in the font region (spec/20_memory.md R51). -/
abbrev Config.InFont (a : Nat) : Prop := Config.hw.fontBase ≤ a ∧ a < Config.hw.fontBase + Config.hw.fontSize

/-- The open parameters of the core, fixed at construction (spec/00_scope.md R6; 92 D3, D8). -/
structure Config where
  /-- `FONT`: the bytes of the read-only font region (spec/10_state.md R35). -/
  font : Vector Byte Config.hw.fontSize
  /-- `WRAP_X`: the horizontal wrap policy of draw (spec/43_display.md R151). -/
  wrapX : Bool
  deriving DecidableEq, Repr

/-- The sixteen glyphs of the default font, five row bytes each (spec/10_state.md R35).
PRESUMED: the spec marks the table as general knowledge (notes/assumptions/5.md). -/
def Config.defaultGlyphs : List (List Byte) :=
  [[0xF0, 0x90, 0x90, 0x90, 0xF0], [0x20, 0x60, 0x20, 0x20, 0x70],
   [0xF0, 0x10, 0xF0, 0x80, 0xF0], [0xF0, 0x10, 0xF0, 0x10, 0xF0]] ++
  [[0x90, 0x90, 0xF0, 0x10, 0x10], [0xF0, 0x80, 0xF0, 0x10, 0xF0],
   [0xF0, 0x80, 0xF0, 0x90, 0xF0], [0xF0, 0x10, 0x20, 0x40, 0x40]] ++
  [[0xF0, 0x90, 0xF0, 0x90, 0xF0], [0xF0, 0x90, 0xF0, 0x10, 0xF0],
   [0xF0, 0x90, 0xF0, 0x90, 0x90], [0xE0, 0x90, 0xE0, 0x90, 0xE0]] ++
  [[0xF0, 0x80, 0x80, 0x80, 0xF0], [0xE0, 0x90, 0x90, 0x90, 0xE0],
   [0xF0, 0x80, 0xF0, 0x80, 0xF0], [0xF0, 0x80, 0xF0, 0x80, 0x80]]

/-- The default `FONT`. -/
def Config.defaultFont : Vector Byte Config.hw.fontSize := ⟨⟨Config.defaultGlyphs.flatten⟩, rfl⟩

/-- The default configuration: the font above, wrap disabled (spec/00_scope.md R6). -/
def Config.default : Config := { font := Config.defaultFont, wrapX := false }

/-- FREE VALUE. The random input of the core: the byte `rnd` that the k-th execution of random receives
(spec/41_register_alu.md R131: any value, a new one each cycle, under no law; notes/assumptions/3.md). -/
opaque Config.rnd : Nat → Byte

/-- FREE VALUE. The power-on content of address `a` of the reserved region `0x050`-`0x1FF`: any value, fixed until a
store changes it (spec/10_state.md R36, 93 U6; notes/assumptions/4.md). -/
opaque Config.reservedByte : Nat → Byte

end Sys2Proof
end

