-- ==== Sys2Proof/Syntax.lean ====
section
/-! DEFINITION. The instruction set: one constructor per row of spec/opcode_table.json, in the order of
spec/30_encoding.md R75. Field names are the spec's: `x`, `y` register numbers, `nn` 8-bit immediate, `nnn` 12-bit
address, `n` row count. -/
namespace Sys2Proof

/-- The 34 instructions and the action taken for every other word (spec/30_encoding.md R75, R77). -/
inductive Instr where
  | clearScreen
  | ret
  | jump (nnn : BitVec 12)
  | call (nnn : BitVec 12)
  | skipIfEqual (x : Reg) (nn : Byte)
  | skipIfNotEqual (x : Reg) (nn : Byte)
  | skipIfRegEqual (x y : Reg)
  | load (x : Reg) (nn : Byte)
  | addImm (x : Reg) (nn : Byte)
  | assign (x y : Reg)
  | orReg (x y : Reg)
  | andReg (x y : Reg)
  | xorReg (x y : Reg)
  | addReg (x y : Reg)
  | sub (x y : Reg)
  /-- `y` is part of the word and ignored (spec/30_encoding.md R78). -/
  | shiftRight (x y : Reg)
  | subReverse (x y : Reg)
  /-- `y` is part of the word and ignored (spec/30_encoding.md R78). -/
  | shiftLeft (x y : Reg)
  | skipIfRegNotEqual (x y : Reg)
  | loadIndex (nnn : BitVec 12)
  | jumpOffset (nnn : BitVec 12)
  | random (x : Reg) (nn : Byte)
  | draw (x y : Reg) (n : Fin 16)
  | skipIfKeyPressed (x : Reg)
  | skipIfKeyNotPressed (x : Reg)
  | getDelay (x : Reg)
  | waitForKey (x : Reg)
  | setDelay (x : Reg)
  | setSound (x : Reg)
  | addToIndex (x : Reg)
  | fontCharAddress (x : Reg)
  | bcd (x : Reg)
  | regDump (x : Reg)
  | regLoad (x : Reg)
  /-- Any word that matches no row (spec/30_encoding.md R77); the payload is the word. -/
  | unsupported (w : Word)
  deriving DecidableEq, Repr

end Sys2Proof
end

