-- ==== Sys2Proof/Decode.lean ====
section
/-! DEFINITION. The decoder (spec/30_encoding.md R70 to R78) and, after it, the encoder (R83).
The numeric opcode values are PRESUMED: the spec supplies them from general knowledge (notes/assumptions/7.md). -/
namespace Sys2Proof

/-! ### Fields of a word (R72) -/

/-- `class`, bits 15:12. -/
def fieldClass (w : Word) : BitVec 4 := w.extractLsb' 12 4
/-- `x`, bits 11:8, as a register number. -/
def fieldX (w : Word) : Reg := ⟨(w.extractLsb' 8 4).toNat, (w.extractLsb' 8 4).isLt⟩
/-- `y`, bits 7:4, as a register number. -/
def fieldY (w : Word) : Reg := ⟨(w.extractLsb' 4 4).toNat, (w.extractLsb' 4 4).isLt⟩
/-- `n`, bits 3:0, as a count. -/
def fieldN (w : Word) : Fin 16 := ⟨(w.extractLsb' 0 4).toNat, (w.extractLsb' 0 4).isLt⟩
/-- `nn`, bits 7:0. -/
def fieldNn (w : Word) : Byte := w.extractLsb' 0 8
/-- `nnn`, bits 11:0. -/
def fieldNnn (w : Word) : BitVec 12 := w.extractLsb' 0 12

/-! ### Decoding by class (R76) -/

/-- Class 0 compares the whole word. -/
def decodeClass0 (w : Word) : Instr :=
  if w = 0x00E0#16 then .clearScreen
  else if w = 0x00EE#16 then .ret
  else .unsupported w

/-- Class 5 requires `n = 0`. -/
def decodeClass5 (w : Word) : Instr :=
  if fieldN w = 0 then .skipIfRegEqual (fieldX w) (fieldY w) else .unsupported w

/-- Class 8 selects by `n`. -/
def decodeClass8 (w : Word) : Instr :=
  match (fieldN w).val with
  | 0x0 => .assign (fieldX w) (fieldY w)
  | 0x1 => .orReg (fieldX w) (fieldY w)
  | 0x2 => .andReg (fieldX w) (fieldY w)
  | 0x3 => .xorReg (fieldX w) (fieldY w)
  | 0x4 => .addReg (fieldX w) (fieldY w)
  | 0x5 => .sub (fieldX w) (fieldY w)
  | 0x6 => .shiftRight (fieldX w) (fieldY w)
  | 0x7 => .subReverse (fieldX w) (fieldY w)
  | 0xE => .shiftLeft (fieldX w) (fieldY w)
  | _ => .unsupported w

/-- Class 9 requires `n = 0`. -/
def decodeClass9 (w : Word) : Instr :=
  if fieldN w = 0 then .skipIfRegNotEqual (fieldX w) (fieldY w) else .unsupported w

/-- Class E compares the whole low byte. -/
def decodeClassE (w : Word) : Instr :=
  if fieldNn w = 0x9E#8 then .skipIfKeyPressed (fieldX w)
  else if fieldNn w = 0xA1#8 then .skipIfKeyNotPressed (fieldX w)
  else .unsupported w

/-- Class F compares the whole low byte. -/
def decodeClassF (w : Word) : Instr :=
  if fieldNn w = 0x07#8 then .getDelay (fieldX w)
  else if fieldNn w = 0x0A#8 then .waitForKey (fieldX w)
  else if fieldNn w = 0x15#8 then .setDelay (fieldX w)
  else if fieldNn w = 0x18#8 then .setSound (fieldX w)
  else if fieldNn w = 0x1E#8 then .addToIndex (fieldX w)
  else if fieldNn w = 0x29#8 then .fontCharAddress (fieldX w)
  else if fieldNn w = 0x33#8 then .bcd (fieldX w)
  else if fieldNn w = 0x55#8 then .regDump (fieldX w)
  else if fieldNn w = 0x65#8 then .regLoad (fieldX w)
  else .unsupported w

/-- The decoding procedure of R76: every word decodes, an unlisted one to `unsupported`. -/
def decodeWord (w : Word) : Instr :=
  match (fieldClass w).toNat with
  | 0x0 => decodeClass0 w
  | 0x1 => .jump (fieldNnn w)
  | 0x2 => .call (fieldNnn w)
  | 0x3 => .skipIfEqual (fieldX w) (fieldNn w)
  | 0x4 => .skipIfNotEqual (fieldX w) (fieldNn w)
  | 0x5 => decodeClass5 w
  | 0x6 => .load (fieldX w) (fieldNn w)
  | 0x7 => .addImm (fieldX w) (fieldNn w)
  | 0x8 => decodeClass8 w
  | 0x9 => decodeClass9 w
  | 0xA => .loadIndex (fieldNnn w)
  | 0xB => .jumpOffset (fieldNnn w)
  | 0xC => .random (fieldX w) (fieldNn w)
  | 0xD => .draw (fieldX w) (fieldY w) (fieldN w)
  | 0xE => decodeClassE w
  | _ => decodeClassF w

/-! ### The table of R75 as mask/match pairs -/

/-- The mask and match columns of R75, rows 1 to 34 in order. -/
def opcodeRows : List (Word × Word) :=
  [(0xFFFF, 0x00E0), (0xFFFF, 0x00EE), (0xF000, 0x1000), (0xF000, 0x2000), (0xF000, 0x3000), (0xF000, 0x4000),
   (0xF00F, 0x5000), (0xF000, 0x6000), (0xF000, 0x7000)] ++
  [(0xF00F, 0x8000), (0xF00F, 0x8001), (0xF00F, 0x8002), (0xF00F, 0x8003), (0xF00F, 0x8004), (0xF00F, 0x8005),
   (0xF00F, 0x8006), (0xF00F, 0x8007), (0xF00F, 0x800E), (0xF00F, 0x9000)] ++
  [(0xF000, 0xA000), (0xF000, 0xB000), (0xF000, 0xC000), (0xF000, 0xD000), (0xF0FF, 0xE09E), (0xF0FF, 0xE0A1)] ++
  [(0xF0FF, 0xF007), (0xF0FF, 0xF00A), (0xF0FF, 0xF015), (0xF0FF, 0xF018), (0xF0FF, 0xF01E), (0xF0FF, 0xF029),
   (0xF0FF, 0xF033), (0xF0FF, 0xF055), (0xF0FF, 0xF065)]

/-- The test `w & mask = match` of R75. -/
def matchesRow (w : Word) (row : Word × Word) : Bool := w &&& row.1 == row.2

/-- A word is supported when it matches a row of R75; every other word is unsupported (R77). -/
def supportedWord (w : Word) : Bool := opcodeRows.any (matchesRow w)

/-! ### Bytes (R71) -/

/-- Why a byte string is no instruction: every 16-bit word decodes, so only a missing byte can be the reason. -/
inductive DecodeError where
  /-- Fewer than two bytes are left. -/
  | truncated
  deriving DecidableEq, Repr

/-- The word of two consecutive bytes, big-endian (R71). -/
def wordOfBytes (hi lo : Byte) : Word := hi ++ lo

/-- One instruction from the front of a byte string, and the bytes after it. -/
def decode : List Byte → Except DecodeError (Instr × List Byte)
  | hi :: lo :: rest => .ok (decodeWord (wordOfBytes hi lo), rest)
  | _ => .error .truncated

/-! ### The encoder (R83) -/

/-- A register number or a count as a 4-bit field. -/
def fieldBits (r : Fin 16) : BitVec 4 := BitVec.ofNat 4 r.val

/-- Format A. -/
def wordA (cls : BitVec 4) (nnn : BitVec 12) : Word := cls ++ nnn
/-- Format XI, and format X with `nn` the fixed low byte. -/
def wordXI (cls : BitVec 4) (x : Reg) (nn : Byte) : Word := cls ++ fieldBits x ++ nn
/-- Format XYN, and format XY with `n` the fixed sub-opcode. -/
def wordXYN (cls : BitVec 4) (x y : Reg) (n : BitVec 4) : Word := cls ++ fieldBits x ++ fieldBits y ++ n

/-- The word of an instruction. -/
def encode : Instr → Word
  | .clearScreen => 0x00E0
  | .ret => 0x00EE
  | .jump nnn => wordA 0x1 nnn
  | .call nnn => wordA 0x2 nnn
  | .skipIfEqual x nn => wordXI 0x3 x nn
  | .skipIfNotEqual x nn => wordXI 0x4 x nn
  | .skipIfRegEqual x y => wordXYN 0x5 x y 0x0
  | .load x nn => wordXI 0x6 x nn
  | .addImm x nn => wordXI 0x7 x nn
  | .assign x y => wordXYN 0x8 x y 0x0
  | .orReg x y => wordXYN 0x8 x y 0x1
  | .andReg x y => wordXYN 0x8 x y 0x2
  | .xorReg x y => wordXYN 0x8 x y 0x3
  | .addReg x y => wordXYN 0x8 x y 0x4
  | .sub x y => wordXYN 0x8 x y 0x5
  | .shiftRight x y => wordXYN 0x8 x y 0x6
  | .subReverse x y => wordXYN 0x8 x y 0x7
  | .shiftLeft x y => wordXYN 0x8 x y 0xE
  | .skipIfRegNotEqual x y => wordXYN 0x9 x y 0x0
  | .loadIndex nnn => wordA 0xA nnn
  | .jumpOffset nnn => wordA 0xB nnn
  | .random x nn => wordXI 0xC x nn
  | .draw x y n => wordXYN 0xD x y (fieldBits n)
  | .skipIfKeyPressed x => wordXI 0xE x 0x9E
  | .skipIfKeyNotPressed x => wordXI 0xE x 0xA1
  | .getDelay x => wordXI 0xF x 0x07
  | .waitForKey x => wordXI 0xF x 0x0A
  | .setDelay x => wordXI 0xF x 0x15
  | .setSound x => wordXI 0xF x 0x18
  | .addToIndex x => wordXI 0xF x 0x1E
  | .fontCharAddress x => wordXI 0xF x 0x29
  | .bcd x => wordXI 0xF x 0x33
  | .regDump x => wordXI 0xF x 0x55
  | .regLoad x => wordXI 0xF x 0x65
  | .unsupported w => w

/-- The high byte of a word, stored at the lower address (R71). -/
def highByte (w : Word) : Byte := w.extractLsb' 8 8
/-- The low byte of a word. -/
def lowByte (w : Word) : Byte := w.extractLsb' 0 8

/-- The two bytes of an instruction in the image, high byte first (R83). -/
def encodeBytes (i : Instr) : List Byte := [highByte (encode i), lowByte (encode i)]

/-! ### The host's view of the table -/

/-- The instruction the decoder reads from the table word `w` of `nbits` bits (bits above `nbits` are zero): its two
bytes are laid out high byte first and given to `decode`. -/
def decodeTableWord (nbits w : Nat) : Option Instr :=
  let word : Word := BitVec.ofNat 16 (w % 2 ^ nbits)
  match decode [highByte word, lowByte word] with
  | .ok (i, _) => some i
  | .error _ => none

end Sys2Proof
end

