-- ==== Sys2Proof/Machine/State.lean ====
section
/-! DEFINITION. The state of the core as plain data (spec/10_state.md R20), the outcomes of a cycle
(spec/60_exceptions.md R170), and the state after construction and `reset()` (spec/10_state.md R34). -/
namespace Sys2Proof.Machine

/-- The two stack faults (spec/60_exceptions.md R173). -/
inductive StackFaultKind where
  | overflow
  | underflow
  deriving DecidableEq, Repr

/-- The four access faults (spec/60_exceptions.md R174). -/
inductive AccessKind where
  | fetch
  | read
  | write
  | key
  deriving DecidableEq, Repr

/-- The outcome of a cycle with its payload (spec/60_exceptions.md R170). -/
inductive CycleOutcome where
  | normal
  /-- `pc` is the address of the word `w` that no row matches (R172). -/
  | decodeFailure (pc w : Word)
  | stackFault (kind : StackFaultKind) (pc : Word)
  /-- `addr` is the lowest offending address, the `PC` for a fetch, the key number for a key (R174). -/
  | accessFault (kind : AccessKind) (addr pc : Word)
  deriving DecidableEq, Repr

/-- The model's own sticky record of outcomes other than Normal: set when one happens, never cleared
(spec/93_implementation_defined.md part 1; notes/assumptions/2.md). -/
structure FaultRecord where
  decodeFailure : Bool
  stackFault : Bool
  accessFault : Bool
  deriving DecidableEq, Repr

/-- The display buffer: rows of one-bit pixels (spec/10_state.md R28). -/
abbrev Display := Vector (Vector Bool Config.hw.displayWidth) Config.hw.displayHeight

/-- The writable memory `0x050`-`0xFFF` as a sorted list; its form and its reading are in Machine/Memory.lean. -/
abbrev Memory := List Host.Cell

/-- The whole state of the core (spec/10_state.md R20), its configuration, its outputs of the last cycle, and the two
fields that are the model's own. -/
structure State where
  /-- `FONT` and `WRAP_X`: configuration, written by no cycle (spec/00_scope.md R6). -/
  cfg : Config
  /-- `V[0]`..`V[15]` (R21); `V[15]` is the flag register (R22). -/
  v : Vector Byte Config.hw.nregs
  /-- `I` (R23). -/
  i : BitVec Config.hw.iWidth
  /-- `PC` (R24). -/
  pc : BitVec Config.hw.pcWidth
  /-- `SP`, the number of stack entries in use, 0..16 (R25). -/
  sp : Fin (Config.hw.stackCapacity + 1)
  /-- `Stack[0]`..`Stack[15]` (R26). -/
  stack : Vector (BitVec Config.hw.stackEntryWidth) Config.hw.stackCapacity
  /-- `Mem[0x050]`..`Mem[0xFFF]` (R27). -/
  mem : Memory
  /-- `D` (R28). -/
  d : Display
  /-- `DT` (R29). -/
  dt : BitVec Config.hw.timerWidth
  /-- `ST` (R29). -/
  st : BitVec Config.hw.timerWidth
  /-- `K`, bit `i` set when key `i` is down (R30). -/
  keys : BitVec Config.hw.nkeys
  /-- `DF` (R31). -/
  df : Bool
  /-- Output of the last cycle (spec/60_exceptions.md R170; notes/assumptions/1.md). -/
  outcome : CycleOutcome
  /-- Output of the last cycle (spec/60_exceptions.md R182; notes/assumptions/1.md). -/
  tone : Bool
  /-- The model's own: how many random bytes have been drawn (notes/assumptions/3.md). -/
  rndCount : Nat
  /-- The model's own: which outcomes other than Normal have happened (notes/assumptions/2.md). -/
  record : FaultRecord
  deriving DecidableEq, Repr

/-- Why the machine stops for good. It has no constructor, since no rule of the spec stops the core: a StackFault or
an AccessFault ends the cycle, leaves the state spec/60_exceptions.md R176 gives, and the host may invoke the next cycle
(R177, spec/70_reset_and_hazards.md R210). Nobody raises it (safe). -/
inductive Fault where
  deriving DecidableEq, Repr

/-- Why an instruction has no meaning. -/
inductive Refusal where
  /-- Raised by an arm of `exec` whose instruction is not modelled yet; no arm raises it now (safe). -/
  | notModelled (mnemonic : String)
  deriving DecidableEq, Repr

/-- A clear display. -/
def Display.clear : Display :=
  Vector.replicate Config.hw.displayHeight (Vector.replicate Config.hw.displayWidth false)

/-- The state after construct and `reset()` with the default configuration (spec/10_state.md R34, R36;
spec/70_reset_and_hazards.md R200, R201). The outputs, the random index and the record are DESIGN CHOICES
(notes/assumptions/1.md, 2.md, 3.md). -/
def State.reset : State where
  cfg := Config.default
  v := Vector.replicate Config.hw.nregs 0
  i := 0
  pc := BitVec.ofNat _ Config.hw.progBase
  sp := 0
  stack := Vector.replicate Config.hw.stackCapacity 0
  mem := []
  d := Display.clear
  dt := 0
  st := 0
  keys := 0
  df := false
  outcome := .normal
  tone := false
  rndCount := 0
  record := { decodeFailure := false, stackFault := false, accessFault := false }

end Sys2Proof.Machine
end

