-- ==== Sys2Proof/Machine/Memory.lean ====
section
/-! DEFINITION. Memory as a list of cells in one canonical form (spec/20_memory.md R50, R51).
The font region `0x000`-`0x04F` is never listed: it is read from the configuration. A reserved cell is listed once it
has been written. A program cell is listed when it holds something other than 0, what `reset()` leaves there. -/
namespace Sys2Proof.Machine

/-- The entry of an address, if it is listed. -/
def Memory.lookup : Memory → Nat → Option Byte
  | [], _ => none
  | (b, w) :: m, a => if b = a then some w else Memory.lookup m a

/-- List an address with a byte, in its place. -/
def Memory.insert : Memory → Nat → Byte → Memory
  | [], a, v => [(a, v)]
  | (b, w) :: m, a, v =>
    if a < b then (a, v) :: (b, w) :: m
    else if a = b then (a, v) :: m
    else (b, w) :: Memory.insert m a v

/-- Unlist an address. -/
def Memory.erase : Memory → Nat → Memory
  | [], _ => []
  | (b, w) :: m, a => if b = a then m else (b, w) :: Memory.erase m a

/-- What an unlisted address reads as: the font in the font region (spec/10_state.md R35), a free value in the
reserved region (R36; notes/assumptions/4.md), 0 in the program region (R34). -/
def Memory.unlistedByte (font : Vector Byte Config.hw.fontSize) (a : Nat) : Byte :=
  if h : Config.InFont a then font[a - Config.hw.fontBase]
  else if a < Config.hw.progBase then Config.reservedByte a else 0

/-- The byte at an address. -/
def Memory.readByte (font : Vector Byte Config.hw.fontSize) (m : Memory) (a : Nat) : Byte :=
  if Config.InFont a then Memory.unlistedByte font a
  else match Memory.lookup m a with
    | some v => v
    | none => Memory.unlistedByte font a

/-- Store a byte at a writable address, keeping the canonical form: 0 in the program region is unlisted. -/
def Memory.writeByte (m : Memory) (a : Nat) (v : Byte) : Memory :=
  if Config.hw.progBase ≤ a ∧ v = 0 then Memory.erase m a else Memory.insert m a v

/-- A cell that may be listed: a writable address, and not the 0 that an unlisted program cell reads as. -/
def Memory.cellOk (c : Host.Cell) : Bool :=
  !decide (Config.InFont c.1) && decide (c.1 < Config.hw.memSize) && !(decide (Config.hw.progBase ≤ c.1) && c.2 == 0)

/-- Addresses rise strictly from above `lo`. -/
def Memory.risingFrom : Nat → Memory → Bool
  | _, [] => true
  | lo, (a, _) :: m => decide (lo < a) && Memory.risingFrom a m

/-- The canonical form: strictly rising writable addresses, no program cell equal to the 0 that an unlisted one reads
as. A reserved cell may hold any byte: nothing says that it equals the free value an unlisted one reads as
(notes/assumptions/4.md). Since every listed address is at least `0x50`, rising from 0 is rising. -/
def Memory.wf (m : Memory) : Bool := Memory.risingFrom 0 m && m.all Memory.cellOk

/-- Zero the program region (spec/70_reset_and_hazards.md R201): its entries go, the reserved ones stay. -/
def Memory.clearProgram (m : Memory) : Memory := m.filter (fun c => decide (c.1 < Config.hw.progBase))

/-- Store consecutive bytes from an address up, lowest first. -/
def Memory.writeRange (m : Memory) (a : Nat) : List Byte → Memory
  | [] => m
  | v :: vs => Memory.writeRange (Memory.writeByte m a v) (a + 1) vs

end Sys2Proof.Machine
end

