-- ==== Sys2Proof/Machine/Ops.lean ====
section
/-! DEFINITION. The named operations every meaning is written over: registers, program counter, call stack, memory
primitives, the end of an instruction, taking a fault, and the phases of a cycle around execution. -/
namespace Sys2Proof.Machine

/-- What a cycle or an instruction answers. -/
abbrev Result := Host.Outcome State Fault Refusal

/-! ### Registers (spec/10_state.md R21 to R24) -/

/-- Read `V[r]`. -/
def State.reg (s : State) (r : Reg) : Byte := s.v[r.val]
/-- Write `V[r]`; no register is hardwired (R21). -/
def State.setReg (s : State) (r : Reg) (b : Byte) : State := { s with v := s.v.set r.val b }
/-- Write VF. -/
def State.setFlag (s : State) (b : Byte) : State := s.setReg 15 b
/-- Write `I`. -/
def State.setIndex (s : State) (w : BitVec Config.hw.iWidth) : State := { s with i := w }
/-- `pc <- target`. -/
def State.setPc (s : State) (w : BitVec Config.hw.pcWidth) : State := { s with pc := w }
/-- "advance": `PC + 2` modulo 2^16 (spec/00_scope.md R11). -/
def State.advance (s : State) : State := s.setPc (s.pc + BitVec.ofNat _ Config.hw.insnBytes)
/-- "skip": `PC + 4` when the condition holds, else `PC + 2`. -/
def State.skipWhen (s : State) (c : Bool) : State :=
  s.setPc (if c then s.pc + BitVec.ofNat _ (2 * Config.hw.insnBytes) else s.pc + BitVec.ofNat _ Config.hw.insnBytes)
/-- Write `DT`. -/
def State.setDelay (s : State) (b : BitVec Config.hw.timerWidth) : State := { s with dt := b }
/-- Write `ST`. -/
def State.setSound (s : State) (b : BitVec Config.hw.timerWidth) : State := { s with st := b }

/-! ### Call stack (spec/10_state.md R25, R26) -/

/-- Read `Stack[k]`. -/
def State.stackEntry (s : State) (k : StackIndex) : BitVec Config.hw.stackEntryWidth := s.stack[k.val]

/-- Push a word: `none` when the stack is full. -/
def State.push (s : State) (w : BitVec Config.hw.stackEntryWidth) : Option State :=
  if h : s.sp.val < Config.hw.stackCapacity then
    some { s with stack := s.stack.set s.sp.val w, sp := ⟨s.sp.val + 1, by omega⟩ }
  else none

/-- Pop a word: `none` when the stack is empty. The entry popped stays in `Stack` (R26). -/
def State.pop (s : State) : Option (BitVec Config.hw.stackEntryWidth × State) :=
  if h : 0 < s.sp.val then
    some (s.stack[s.sp.val - 1]'(by omega), { s with sp := ⟨s.sp.val - 1, by omega⟩ })
  else none

/-! ### Memory (spec/20_memory.md R52, R53, R58) -/

/-- `Mem[a]`, with no check. -/
def State.byteAt (s : State) (a : Nat) : Byte := Memory.readByte s.cfg.font s.mem a

/-- `Mem[a] <- v`, with no check. -/
def State.setByte (s : State) (a : Nat) (v : Byte) : State := { s with mem := Memory.writeByte s.mem a v }

/-- An access that raises AccessFault: its kind and the offending address. -/
structure AccessError where
  kind : AccessKind
  addr : Nat
  deriving DecidableEq, Repr

/-- `MemRead(addr, 1)` (R52). -/
def State.memRead (s : State) (a : Nat) : Except AccessError Byte :=
  if Config.hw.memSize ≤ a then .error { kind := .read, addr := a } else .ok (s.byteAt a)

/-- `MemWrite(addr, 1, v)` (R53): the font region is read-only. -/
def State.memWrite (s : State) (a : Nat) (v : Byte) : Except AccessError State :=
  if Config.hw.memSize ≤ a then .error { kind := .write, addr := a }
  else if Config.InFont a then .error { kind := .write, addr := a }
  else .ok (s.setByte a v)

/-- Read `n` bytes from `a` up. Addresses rise and reads change nothing, so the error, if there is one, is of the
lowest bad address (R58). -/
def State.memReadRange (s : State) (a : Nat) : Nat → Except AccessError (List Byte)
  | 0 => .ok []
  | n + 1 =>
    match s.memRead a with
    | .error e => .error e
    | .ok b =>
      match s.memReadRange (a + 1) n with
      | .error e => .error e
      | .ok bs => .ok (b :: bs)

/-- Write bytes from `a` up. On an error the answer holds no state, so nothing is written (R58), and the error is of
the lowest bad address. -/
def State.memWriteRange (s : State) (a : Nat) : List Byte → Except AccessError State
  | [] => .ok s
  | v :: vs =>
    match s.memWrite a v with
    | .error e => .error e
    | .ok s' => s'.memWriteRange (a + 1) vs

/-- Write bytes to `V[r]`, `V[r+1]`, ... (reg-load); registers above `V[15]` do not exist. -/
def State.setRegsFrom (s : State) (r : Nat) : List Byte → State
  | [] => s
  | b :: bs => if h : r < Config.hw.nregs then (s.setReg ⟨r, h⟩ b).setRegsFrom (r + 1) bs else s

/-- `V[0]`..`V[x]` in order (reg-dump). -/
def State.regsUpTo (s : State) (x : Reg) : List Byte := s.v.toList.take (x.val + 1)

/-! ### Display (spec/10_state.md R28) -/

/-- `D[r][c]`. -/
def State.pixel (s : State) (r : Row) (c : Column) : Bool := s.d[r.val][c.val]

/-- Write `D` and set the draw flag, as both display instructions do (spec/43_display.md R150, R151). -/
def State.setDisplay (s : State) (d : Display) : State := { s with d := d, df := true }

/-! ### The end of an instruction, and taking a fault -/

/-- An outcome that ends the cycle with no effect (spec/60_exceptions.md R176). -/
def CycleOutcome.isFault : CycleOutcome → Bool
  | .normal | .decodeFailure _ _ => false
  | .stackFault _ _ | .accessFault _ _ _ => true

/-- The record after an outcome. -/
def FaultRecord.note (r : FaultRecord) : CycleOutcome → FaultRecord
  | .normal => r
  | .decodeFailure _ _ => { r with decodeFailure := true }
  | .stackFault _ _ => { r with stackFault := true }
  | .accessFault _ _ _ => { r with accessFault := true }

/-- Hand an outcome out. -/
def State.report (s : State) (o : CycleOutcome) : State := { s with outcome := o, record := s.record.note o }

/-- The instruction completes with outcome Normal. -/
def complete (s : State) : Result := .next (s.report .normal)

/-- TAKING A FAULT (`raise`, spec/60_exceptions.md R176): no state of the core changes, `tone` is 0, the outcome goes to
the host. Phase 1 has cleared `DF`; `endCycle` leaves the tick out. There is nothing to save, no handler, and no return
from it (R177): the host may invoke the next cycle. -/
def raise (o : CycleOutcome) (s : State) : Result := .next ({ s with tone := false }.report o)

/-- StackFault at the executing instruction (R173). -/
def raiseStack (k : StackFaultKind) (s : State) : Result := raise (.stackFault k s.pc) s

/-- AccessFault at the executing instruction (R174); an address in the payload has 16 bits (R170). -/
def raiseAccess (e : AccessError) (s : State) : Result :=
  raise (.accessFault e.kind (BitVec.ofNat 16 e.addr) s.pc) s

/-! ### The phases of a cycle around execution (spec/00_scope.md R9) -/

/-- Phase 1: `DF <- 0`. The outputs of the last cycle go with it. -/
def State.beginCycle (s : State) : State := { s with df := false, outcome := .normal, tone := false }

/-- Phase 2: the fetch (spec/20_memory.md R54, R71), one range test and then two bytes, high byte first. -/
def State.fetch (s : State) : Except AccessError Word :=
  if Config.hw.memSize < s.pc.toNat + Config.hw.insnBytes then .error { kind := .fetch, addr := s.pc.toNat }
  else .ok (wordOfBytes (s.byteAt s.pc.toNat) (s.byteAt (s.pc.toNat + 1)))

/-- A timer counts down to 0 and stays there (spec/60_exceptions.md R181). -/
def countDown (t : BitVec Config.hw.timerWidth) : BitVec Config.hw.timerWidth := if t = 0 then 0 else t - 1

/-- Phase 5: the timer tick and the `tone` output (spec/60_exceptions.md R181, R182). -/
def State.tick (s : State) : State :=
  { s with dt := countDown s.dt, st := countDown s.st, tone := decide (s.st = 1) }

/-- Phase 5 after execution: the tick, unless the cycle ended in StackFault or AccessFault (R176, R181). -/
def endCycle : Result → Result
  | .next s => .next (if s.outcome.isFault then s else s.tick)
  | .fault r => .fault r
  | .refused r => .refused r

/-! ### Placing a word for the fetch -/

/-- Put a byte at any address, the font region included: what a loader outside the machine can do before it runs. No
instruction and no host operation of the spec does this. -/
def State.placeByte (s : State) (a : Nat) (v : Byte) : State :=
  if h : Config.InFont a then { s with cfg := { s.cfg with font := s.cfg.font.set (a - Config.hw.fontBase) v } }
  else s.setByte a v

/-- Put a word where the next fetch reads it. Where `PC` can fetch nothing (above `0xFFE`), it is set to the entry
point `0x200` first. -/
def State.placeWord (s : State) (w : Word) : State :=
  let s := if Config.hw.memSize < s.pc.toNat + Config.hw.insnBytes then s.setPc (BitVec.ofNat _ Config.hw.progBase) else s
  (s.placeByte s.pc.toNat (highByte w)).placeByte (s.pc.toNat + 1) (lowByte w)

end Sys2Proof.Machine
end

