-- ==== Sys2Proof/Machine/Operands.lean ====
section
/-! DEFINITION. The operand forms (spec/30_encoding.md R74): registers and 8-bit immediates are used as they are; the
forms that compute something are here. -/
namespace Sys2Proof.Machine

/-- A 12-bit address, zero-extended (R74). -/
def addressOperand (nnn : BitVec 12) : Word := nnn.zeroExtend 16

/-- A byte as a 16-bit addend, zero-extended (R74). -/
def byteOperand (b : Byte) : Word := b.zeroExtend 16

/-- Index plus constant offset, not wrapped (spec/20_memory.md R59). -/
def State.indexAddress (s : State) (k : Nat) : Nat := s.i.toNat + k

/-- The target of jump-offset: `V[0]` plus the address (spec/40_control_flow.md R107). -/
def State.offsetTarget (s : State) (nnn : BitVec 12) : Word := byteOperand (s.reg 0) + addressOperand nnn

/-- The address of a glyph, `glyphBytes` bytes each, from 0 (spec/42_index_and_memory.md R142). -/
def glyphAddress (b : Byte) : Word := byteOperand b * BitVec.ofNat 16 Config.hw.glyphBytes

/-- The decimal digits of a byte: hundreds, tens, ones (spec/42_index_and_memory.md R143). -/
def bcdDigits (b : Byte) : List Byte :=
  [BitVec.ofNat 8 (b.toNat / 100), BitVec.ofNat 8 (b.toNat / 10 % 10), BitVec.ofNat 8 (b.toNat % 10)]

/-- The key a register names: `none` above 15 (spec/44_keypad_and_timers.md R160). -/
def keyOperand (b : Byte) : Option Key := if h : b.toNat < Config.hw.nkeys then some ⟨b.toNat, h⟩ else none

/-- `K[k]` (spec/10_state.md R30). -/
def State.keyDown (s : State) (k : Key) : Bool := s.keys.getLsbD k.val

/-- The least key that is down, if one is (spec/44_keypad_and_timers.md R162). -/
def State.lowestKey (s : State) : Option Nat := (List.range Config.hw.nkeys).find? (fun k => s.keys.getLsbD k)

/-- The random byte of this cycle (spec/00_scope.md R10; notes/assumptions/3.md). -/
def State.rnd (s : State) : Byte := Config.rnd s.rndCount

/-- The random input moves on, so that the next random reads a byte of its own. -/
def State.drawRandom (s : State) : State := { s with rndCount := s.rndCount + 1 }

/-! ### Sprites (spec/43_display.md R151) -/

/-- The display column of a sprite column: clipped at the right edge, or continued from column 0 under `WRAP_X`. -/
def targetColumn (wrapX : Bool) (px : Nat) : Option Column :=
  if h : px < Config.hw.displayWidth then some ⟨px, h⟩
  else if wrapX then some ⟨px % Config.hw.displayWidth, Nat.mod_lt _ (by decide)⟩
  else none

/-- The pixels one row byte acts on, at display row `py`: one for each set bit that is not clipped, bit 7 leftmost. -/
def rowTargets (wrapX : Bool) (vx : Nat) (py : Row) (b : Byte) : List (Row × Column) :=
  (List.range 8).filterMap fun c =>
    if b.getLsbD (7 - c) then (targetColumn wrapX (vx + c)).map (fun px => (py, px)) else none

/-- The pixels a sprite acts on, top row first; a row below the bottom edge acts on none. -/
def spriteTargets (wrapX : Bool) (vx : Nat) : Nat → List Byte → List (Row × Column)
  | _, [] => []
  | py, b :: bs =>
    (if h : py < Config.hw.displayHeight then rowTargets wrapX vx ⟨py, h⟩ b else []) ++ spriteTargets wrapX vx (py + 1) bs

/-- Flip one pixel, and note a collision when it was set. -/
def flipPixel (p : Display × Bool) (t : Row × Column) : Display × Bool :=
  (p.1.set t.1.val (p.1[t.1.val].set t.2.val (!p.1[t.1.val][t.2.val])), p.2 || p.1[t.1.val][t.2.val])

/-- XOR pixels onto a display: the new display, and whether a set pixel was flipped. -/
def xorPixels (d : Display) (ts : List (Row × Column)) : Display × Bool := ts.foldl flipPixel (d, false)

end Sys2Proof.Machine
end

