-- ==== Sys2Proof/Machine/ControlFlow.lean ====
section
/-! DEFINITION. Control-flow instructions (spec/40_control_flow.md) and the action for unsupported words
(spec/30_encoding.md R77). -/
namespace Sys2Proof.Machine

/-- return (R100): the popped entry is the address of the call, so 2 is added. -/
def execRet (s : State) : Result :=
  match s.pop with
  | some (w, s') => complete (s'.setPc (w + BitVec.ofNat _ Config.hw.insnBytes))
  | none => raiseStack .underflow s

/-- jump nnn (R101). -/
def execJump (nnn : BitVec 12) (s : State) : Result := complete (s.setPc (addressOperand nnn))

/-- call nnn (R102): the call's own address is pushed. -/
def execCall (nnn : BitVec 12) (s : State) : Result :=
  match s.push s.pc with
  | some s' => complete (s'.setPc (addressOperand nnn))
  | none => raiseStack .overflow s

/-- skip-if-equal Vx,nn (R103). -/
def execSkipIfEqual (x : Reg) (nn : Byte) (s : State) : Result := complete (s.skipWhen (s.reg x == nn))

/-- skip-if-not-equal Vx,nn (R104). -/
def execSkipIfNotEqual (x : Reg) (nn : Byte) (s : State) : Result := complete (s.skipWhen (s.reg x != nn))

/-- skip-if-reg-equal Vx,Vy (R105). -/
def execSkipIfRegEqual (x y : Reg) (s : State) : Result := complete (s.skipWhen (s.reg x == s.reg y))

/-- skip-if-reg-not-equal Vx,Vy (R106): changes `PC` and nothing else. -/
def execSkipIfRegNotEqual (x y : Reg) (s : State) : Result := complete (s.skipWhen (s.reg x != s.reg y))

/-- jump-offset nnn (R107): the register is always `V[0]`. -/
def execJumpOffset (nnn : BitVec 12) (s : State) : Result := complete (s.setPc (s.offsetTarget nnn))

/-- The action for every other word (spec/30_encoding.md R77): `PC + 2` and the outcome DecodeFailure with the address
and the word; the tick follows (spec/60_exceptions.md R172). -/
def execUnsupported (w : Word) (s : State) : Result := .next (s.advance.report (.decodeFailure s.pc w))

end Sys2Proof.Machine
end

