-- ==== Sys2Proof/Machine/Flags.lean ====
section
/-! DEFINITION. The seven values that instructions write to VF as a side effect (spec/10_state.md R22). -/
namespace Sys2Proof.Machine

/-- A flag as the byte written to VF. -/
def flagByte (b : Bool) : Byte := if b then 1 else 0

/-- add Vx,Vy: the unsigned sum passes 255 (spec/41_register_alu.md R126). -/
def carryFlag (a b : Byte) : Byte := flagByte (decide (255 < a.toNat + b.toNat))

/-- sub and sub-reverse, `minuend - subtrahend`: 0 on a borrow, which happens exactly when the minuend is less
(spec/41_register_alu.md R127, R129; 92 D19). -/
def noBorrowFlag (minuend subtrahend : Byte) : Byte := flagByte (!decide (minuend.toNat < subtrahend.toNat))

/-- shift-right: bit 0 before the shift (spec/41_register_alu.md R128). -/
def shiftRightFlag (a : Byte) : Byte := flagByte (a.getLsbD 0)

/-- shift-left: bit 7 before the shift (spec/41_register_alu.md R130). -/
def shiftLeftFlag (a : Byte) : Byte := flagByte (a.getLsbD 7)

/-- add-to-index: the unwrapped sum passes `0x0FFF` (spec/42_index_and_memory.md R141; 92 D20). -/
def indexOverflowFlag (index : Word) (a : Byte) : Byte := flagByte (decide (Config.hw.memSize ≤ index.toNat + a.toNat))

/-- draw: some pixel that was set was flipped (spec/43_display.md R151). -/
def collisionFlag (hit : Bool) : Byte := flagByte hit

end Sys2Proof.Machine
end

