-- ==== Sys2Proof/Machine/DisplayOps.lean ====
section
/-! DEFINITION. Display instructions (spec/43_display.md). Both set `DF` whenever they complete. -/
namespace Sys2Proof.Machine

/-- clear-screen (R150). -/
def execClearScreen (s : State) : Result := complete (s.setDisplay Display.clear).advance

/-- draw Vx,Vy,n (R151): all `n` bytes are read first, the coordinates are read before VF is written. -/
def execDraw (x y : Reg) (n : Fin 16) (s : State) : Result :=
  match s.memReadRange (s.indexAddress 0) n.val with
  | .ok rows =>
    let p := xorPixels s.d (spriteTargets s.cfg.wrapX (s.reg x).toNat (s.reg y).toNat rows)
    complete ((s.setFlag (collisionFlag p.2)).setDisplay p.1).advance
  | .error e => raiseAccess e s

end Sys2Proof.Machine
end

