-- ==== Sys2Proof/Machine/IndexMemory.lean ====
section
/-! DEFINITION. Index-register and memory instructions (spec/42_index_and_memory.md). `I` is changed by no access. -/
namespace Sys2Proof.Machine

/-- load-index nnn (R140). -/
def execLoadIndex (nnn : BitVec 12) (s : State) : Result := complete (s.setIndex (addressOperand nnn)).advance

/-- add-to-index Vx (R141): `I` modulo 2^16, then the flag of the unwrapped sum. -/
def execAddToIndex (x : Reg) (s : State) : Result :=
  complete ((s.setIndex (s.i + byteOperand (s.reg x))).setFlag (indexOverflowFlag s.i (s.reg x))).advance

/-- font-char-address Vx (R142). -/
def execFontCharAddress (x : Reg) (s : State) : Result := complete (s.setIndex (glyphAddress (s.reg x))).advance

/-- bcd Vx (R143): hundreds at `I`, tens at `I+1`, ones at `I+2`, all or nothing. -/
def execBcd (x : Reg) (s : State) : Result :=
  match s.memWriteRange (s.indexAddress 0) (bcdDigits (s.reg x)) with
  | .ok s' => complete s'.advance
  | .error e => raiseAccess e s

/-- reg-dump Vx (R144): `V[k]` at `I+k`, all or nothing. -/
def execRegDump (x : Reg) (s : State) : Result :=
  match s.memWriteRange (s.indexAddress 0) (s.regsUpTo x) with
  | .ok s' => complete s'.advance
  | .error e => raiseAccess e s

/-- reg-load Vx (R145): `V[k]` from `I+k`, all or nothing. -/
def execRegLoad (x : Reg) (s : State) : Result :=
  match s.memReadRange (s.indexAddress 0) (x.val + 1) with
  | .ok bs => complete (s.setRegsFrom 0 bs).advance
  | .error e => raiseAccess e s

end Sys2Proof.Machine
end

