-- ==== Sys2Proof/Machine/KeypadTimers.lean ====
section
/-! DEFINITION. Keypad and timer instructions (spec/44_keypad_and_timers.md). None writes VF as a side effect. -/
namespace Sys2Proof.Machine

/-- skip-if-key-pressed Vx (R160). -/
def execSkipIfKeyPressed (x : Reg) (s : State) : Result :=
  match keyOperand (s.reg x) with
  | some k => complete (s.skipWhen (s.keyDown k))
  | none => raiseAccess { kind := .key, addr := (s.reg x).toNat } s

/-- skip-if-key-not-pressed Vx (R161). -/
def execSkipIfKeyNotPressed (x : Reg) (s : State) : Result :=
  match keyOperand (s.reg x) with
  | some k => complete (s.skipWhen (!s.keyDown k))
  | none => raiseAccess { kind := .key, addr := (s.reg x).toNat } s

/-- wait-for-key Vx (R162): with no key down nothing changes and the same word runs again next cycle. -/
def execWaitForKey (x : Reg) (s : State) : Result :=
  match s.lowestKey with
  | some k => complete (s.setReg x (BitVec.ofNat 8 k)).advance
  | none => complete s

/-- get-delay Vx (R163). -/
def execGetDelay (x : Reg) (s : State) : Result := complete (s.setReg x s.dt).advance

/-- set-delay Vx (R164). -/
def execSetDelay (x : Reg) (s : State) : Result := complete (s.setDelay (s.reg x)).advance

/-- set-sound Vx (R165). -/
def execSetSound (x : Reg) (s : State) : Result := complete (s.setSound (s.reg x)).advance

end Sys2Proof.Machine
end

