-- ==== Sys2Proof/Machine/RegisterAlu.lean ====
section
/-! DEFINITION. Register and arithmetic instructions (spec/41_register_alu.md). Operands are read from the state before
the instruction; writes happen in the order the rule lists them (spec/00_scope.md R8). -/
namespace Sys2Proof.Machine

/-- load Vx,nn (R120). -/
def execLoad (x : Reg) (nn : Byte) (s : State) : Result := complete (s.setReg x nn).advance

/-- add Vx,nn (R121): no flag. -/
def execAddImm (x : Reg) (nn : Byte) (s : State) : Result := complete (s.setReg x (s.reg x + nn)).advance

/-- assign Vx,Vy (R122). -/
def execAssign (x y : Reg) (s : State) : Result := complete (s.setReg x (s.reg y)).advance

/-- or Vx,Vy (R123): no flag. -/
def execOrReg (x y : Reg) (s : State) : Result := complete (s.setReg x (s.reg x ||| s.reg y)).advance

/-- and Vx,Vy (R124): no flag. -/
def execAndReg (x y : Reg) (s : State) : Result := complete (s.setReg x (s.reg x &&& s.reg y)).advance

/-- xor Vx,Vy (R125): no flag. -/
def execXorReg (x y : Reg) (s : State) : Result := complete (s.setReg x (s.reg x ^^^ s.reg y)).advance

/-- add Vx,Vy (R126): the sum, then the carry. -/
def execAddReg (x y : Reg) (s : State) : Result :=
  complete ((s.setReg x (s.reg x + s.reg y)).setFlag (carryFlag (s.reg x) (s.reg y))).advance

/-- sub Vx,Vy (R127): the difference, then the inverted borrow. -/
def execSub (x y : Reg) (s : State) : Result :=
  complete ((s.setReg x (s.reg x - s.reg y)).setFlag (noBorrowFlag (s.reg x) (s.reg y))).advance

/-- shift-right Vx (R128): the bit shifted out, then the result; `y` is ignored (spec/30_encoding.md R78). -/
def execShiftRight (x _y : Reg) (s : State) : Result :=
  complete ((s.setFlag (shiftRightFlag (s.reg x))).setReg x (s.reg x >>> 1)).advance

/-- sub-reverse Vx,Vy (R129): `V[y] - V[x]`, then the inverted borrow. -/
def execSubReverse (x y : Reg) (s : State) : Result :=
  complete ((s.setReg x (s.reg y - s.reg x)).setFlag (noBorrowFlag (s.reg y) (s.reg x))).advance

/-- shift-left Vx (R130): the bit shifted out, then the result; `y` is ignored (spec/30_encoding.md R78). -/
def execShiftLeft (x _y : Reg) (s : State) : Result :=
  complete ((s.setFlag (shiftLeftFlag (s.reg x))).setReg x (s.reg x <<< 1)).advance

/-- random Vx,nn (R131): the random byte is a free value (notes/assumptions/3.md). -/
def execRandom (x : Reg) (nn : Byte) (s : State) : Result :=
  complete (s.setReg x (s.rnd &&& nn)).drawRandom.advance

end Sys2Proof.Machine
end

