-- ==== Sys2Proof/Machine/Step.lean ====
section
/-! DEFINITION. One cycle of the core (spec/00_scope.md R9). -/
namespace Sys2Proof.Machine

/-- One cycle: clear `DF`, fetch, decode, execute, tick. A fetch that is out of range takes AccessFault(fetch). -/
def step (s : State) : Host.Outcome State Fault Refusal :=
  match s.beginCycle.fetch with
  | .ok w => endCycle (exec (decodeWord w) s.beginCycle)
  | .error e => endCycle (raiseAccess e s.beginCycle)

/-- `s` with the instruction word `w` stored where `step` fetches next. It stands for the load of a program from
outside the machine (spec/70_reset_and_hazards.md R202, R205; notes/assumptions/13.md). -/
def State.withFetchWord (s : State) (nbits w : Nat) : State := s.placeWord (BitVec.ofNat 16 (w % 2 ^ nbits))

end Sys2Proof.Machine
end

