-- ==== Sys2Proof/Machine/HostOps.lean ====
section
/-! DEFINITION. The operations of the host between cycles (spec/70_reset_and_hazards.md R200 to R203). -/
namespace Sys2Proof.Machine

/-- construct (R200): the configuration, and with it the font, is fixed. Nothing else is defined by construction, so
every other field is whatever `s` has (spec/10_state.md R36, 93 U7). -/
def construct (cfg : Config) (s : State) : State := { s with cfg := cfg }

/-- `reset()` (R201). Configuration and the reserved region stay. The model's record stays (never cleared), and the
random index stays, so that a reset does not make random bytes repeat. -/
def hostReset (s : State) : State :=
  { s with v := Vector.replicate Config.hw.nregs 0, i := 0, pc := BitVec.ofNat _ Config.hw.progBase, sp := 0,
           stack := Vector.replicate Config.hw.stackCapacity 0,
           d := Display.clear, dt := 0, st := 0, keys := 0, df := false,
           mem := Memory.clearProgram s.mem, outcome := .normal, tone := false }

/-- How `loadProgram` ends (R202). It is no outcome of a cycle. -/
inductive LoadStatus where
  | ok
  /-- More than 3584 bytes: nothing is changed. -/
  | imageTooLarge
  deriving DecidableEq, Repr

/-- `loadProgram(bytes)` (R202): the image is copied verbatim from `0x200` up; only memory changes. -/
def loadProgram (bytes : List Byte) (s : State) : LoadStatus × State :=
  if Config.hw.memSize - Config.hw.progBase < bytes.length then (.imageTooLarge, s)
  else (.ok, { s with mem := Memory.writeRange s.mem Config.hw.progBase bytes })

/-- `setKeys(k)` (R203). -/
def setKeys (k : BitVec Config.hw.nkeys) (s : State) : State := { s with keys := k }

end Sys2Proof.Machine
end

