-- ==== Sys2Proof/Machine/Session.lean ====
section
/-! DEFINITION. What the host may do, one event at a time (spec/70_reset_and_hazards.md R204, R205). -/
namespace Sys2Proof.Machine

/-- One interaction of the host with a constructed core. -/
inductive HostEvent where
  | cycle
  | reset
  | loadProgram (bytes : List Byte)
  | setKeys (k : BitVec Config.hw.nkeys)
  deriving DecidableEq, Repr

/-- The core after one event. A load that fails leaves the state as it was. -/
def handle (e : HostEvent) (s : State) : Result :=
  match e with
  | .cycle => step s
  | .reset => .next (hostReset s)
  | .loadProgram bytes => .next (Sys2Proof.Machine.loadProgram bytes s).2
  | .setKeys k => .next (Sys2Proof.Machine.setKeys k s)

/-- The core after a list of events, first event first. -/
def session : List HostEvent → State → Result
  | [], s => .next s
  | e :: es, s =>
    match handle e s with
    | .next s' => session es s'
    | .fault r => .fault r
    | .refused r => .refused r

/-- The boot order: construct, `reset()`, load (spec/70_reset_and_hazards.md R205). -/
def boot (cfg : Config) (image : List Byte) (s : State) : LoadStatus × State :=
  loadProgram image (hostReset (construct cfg s))

end Sys2Proof.Machine
end

