-- ==== Sys2Proof/WellFormed.lean ====
section
/-! DEFINITION. Which terms of `Instr` an instruction word can stand for. Register numbers, counts and immediates are
in range by their types; the one check left is that an `unsupported` term carries a word that no row of
spec/30_encoding.md R75 matches (R77). -/
namespace Sys2Proof

/-- The well-formed instructions. -/
def Instr.wf : Instr → Bool
  | .unsupported w => !supportedWord w
  | .clearScreen | .ret | .jump _ | .call _ | .skipIfEqual _ _ | .skipIfNotEqual _ _ | .skipIfRegEqual _ _
  | .load _ _ | .addImm _ _ | .assign _ _ | .orReg _ _ | .andReg _ _ | .xorReg _ _ | .addReg _ _ | .sub _ _
  | .shiftRight _ _ | .subReverse _ _ | .shiftLeft _ _ | .skipIfRegNotEqual _ _ | .loadIndex _ | .jumpOffset _
  | .random _ _ | .draw _ _ _ | .skipIfKeyPressed _ | .skipIfKeyNotPressed _ | .getDelay _ | .waitForKey _
  | .setDelay _ | .setSound _ | .addToIndex _ | .fontCharAddress _ | .bcd _ | .regDump _ | .regLoad _ => true

end Sys2Proof
end

