-- ==== Sys2Proof/Safety.lean ====
section
/-! DEFINITION. The terms in which claims are made: the invariant of the machine, the states a session can reach, when
a program has halted or faulted, the access matrix of spec/10_state.md R37, and which pixels a sprite covers. -/
namespace Sys2Proof.Machine

/-! ### Invariant and reachable states -/

/-- The invariant of the machine. `SP` in 0..16 (spec/10_state.md R25) is in the type of `State.sp`. -/
structure State.Inv (s : State) : Prop where
  /-- Memory is in canonical form; in particular the font region is never listed (spec/20_memory.md R51). -/
  memory : Memory.wf s.mem = true
  /-- A tone is heard only when the sound timer has just reached 0 (spec/60_exceptions.md R182). -/
  tone : s.tone = true → s.st = 0
  /-- The draw flag is set only by an instruction that completed (spec/10_state.md R31). -/
  drawFlag : s.df = true → s.outcome = .normal
  /-- A faulting cycle leaves `DF` and `tone` at 0 (spec/60_exceptions.md R176). -/
  quiet : s.outcome.isFault = true → s.df = false ∧ s.tone = false
  /-- The outcome in view is in the record (notes/assumptions/2.md). -/
  recorded : s.record.note s.outcome = s.record

/-- The states of a session: the boot order, then any events of the host (spec/70_reset_and_hazards.md R204, R205).
The state before construction is any state whose memory is a memory. -/
inductive Reachable : State → Prop where
  | boot (cfg : Config) (image : List Byte) (s : State) (h : Memory.wf s.mem = true) : Reachable (boot cfg image s).2
  | event (e : HostEvent) (s t : State) (hs : Reachable s) (h : handle e s = .next t) : Reachable t

/-! ### Halted and faulted (spec/70_reset_and_hazards.md R210) -/

/-- The program has halted at address `a`: `PC = a` and the word at `a` is `jump a`. -/
def State.haltedAt (s : State) (a : BitVec 12) : Prop :=
  a.toNat + Config.hw.insnBytes ≤ Config.hw.memSize ∧ s.pc.toNat = a.toNat ∧
    wordOfBytes (s.byteAt a.toNat) (s.byteAt (a.toNat + 1)) = encode (.jump a)

/-- The last cycle ended in StackFault or AccessFault. -/
def State.faulted (s : State) : Bool := s.outcome.isFault

/-! ### The access matrix (spec/10_state.md R37), the columns of writes -/

/-- The registers an instruction may write: its destination, and VF where spec/10_state.md R22 gives it a flag. -/
def writtenRegs : Instr → List Reg
  | .load x _ | .addImm x _ | .assign x _ | .orReg x _ | .andReg x _ | .xorReg x _ | .random x _ | .getDelay x
  | .waitForKey x => [x]
  | .addReg x _ | .sub x _ | .shiftRight x _ | .subReverse x _ | .shiftLeft x _ => [x, 15]
  | .draw _ _ _ | .addToIndex _ => [15]
  | .regLoad x => (List.finRange Config.hw.nregs).filter (fun r => decide (r ≤ x))
  | _ => []

/-- The instructions that write `I`. -/
def writesIndex : Instr → Bool
  | .loadIndex _ | .addToIndex _ | .fontCharAddress _ => true
  | _ => false

/-- The instructions that write the call stack or its pointer. -/
def writesStack : Instr → Bool
  | .call _ | .ret => true
  | _ => false

/-- How many bytes an instruction stores, from `I` up. -/
def storeLength : Instr → Nat
  | .bcd _ => 3
  | .regDump x => x.val + 1
  | _ => 0

/-- How many bytes an instruction reads, from `I` up. -/
def readLength : Instr → Nat
  | .regLoad x => x.val + 1
  | .draw _ _ n => n.val
  | _ => 0

/-- The instructions that write the display and the draw flag. -/
def writesDisplay : Instr → Bool
  | .clearScreen | .draw _ _ _ => true
  | _ => false

/-- The instructions that read the key state. -/
def readsKeys : Instr → Bool
  | .skipIfKeyPressed _ | .skipIfKeyNotPressed _ | .waitForKey _ => true
  | _ => false

/-- A change of state made after an instruction. -/
def mapNext (f : State → State) : Result → Result
  | .next s => .next (f s)
  | .fault r => .fault r
  | .refused r => .refused r

/-! ### How an instruction ends -/

/-- Completed, and `PC` advanced by one instruction word (spec/00_scope.md R11). -/
def State.completesAfter (t s : State) : Prop :=
  t.outcome = .normal ∧ t.pc.toNat = (s.pc.toNat + 2) % 65536

/-- Completed with `PC` at an address, and nothing else changed. -/
def State.onlyMovesTo (t s : State) (pc : Nat) : Prop :=
  t.pc.toNat = pc ∧ t = { s with pc := t.pc, outcome := .normal }

/-- Every register but those listed is unchanged. -/
def State.sameRegsBut (t s : State) (rs : List Reg) : Prop := ∀ r, r ∉ rs → t.reg r = s.reg r

/-! ### Sprites (spec/43_display.md R151) -/

/-- The sprite of draw Vx,Vy,n has a set bit that falls on pixel `(r, c)`: row `j` of the sprite is display row `r`, and
its column `k` (bit `7 - k`) is display column `c`, directly or by the horizontal wrap. -/
def State.spriteCovers (s : State) (x y : Reg) (n : Fin 16) (r : Row) (c : Column) : Prop :=
  ∃ j < n.val, (s.reg y).toNat + j = r.val ∧
    ∃ k < 8, (s.byteAt (s.i.toNat + j)).getLsbD (7 - k) = true ∧
      ((s.reg x).toNat + k = c.val ∨
        (s.cfg.wrapX = true ∧ Config.hw.displayWidth ≤ (s.reg x).toNat + k ∧
          ((s.reg x).toNat + k) % Config.hw.displayWidth = c.val))

end Sys2Proof.Machine
end

