-- ==== Sys2Proof/Certificates/Slice0/Obligations.lean ====
section
/-! DEFINITION. The statements for the provers. Addresses, sums and differences are written on natural numbers, as the
pseudocode of the spec has them (spec/00_scope.md R7), and narrowed where a rule narrows them. -/

open Sys2Proof Sys2Proof.Machine

/-! ### Encoding -/

/-- Decoding the word of a well-formed instruction gives the instruction back, for every operand
(spec/30_encoding.md R72, R76, R83; the opcode values are the model's, notes/assumptions/7.md). -/
def Obligations.DecodeOfEncode : Prop :=
  ∀ i : Instr, i.wf = true → decodeWord (encode i) = i

/-- Encoding what a word decodes to gives the word back, and what it decodes to is well formed: no bit of any of the
65536 words is dropped (spec/30_encoding.md R72, R77, R83). -/
def Obligations.EncodeOfDecode : Prop :=
  ∀ w : Word, encode (decodeWord w) = w ∧ (decodeWord w).wf = true

/-- The decoding procedure and the mask/match table agree on which words are unsupported
(spec/30_encoding.md R76, R77). -/
def Obligations.UnsupportedIffNoRowMatches : Prop :=
  ∀ w : Word, decodeWord w = .unsupported w ↔ ∀ row ∈ opcodeRows, w &&& row.1 ≠ row.2

/-- No word matches two rows of the table (spec/30_encoding.md R76). -/
def Obligations.OpcodeRowsAreDisjoint : Prop :=
  ∀ w : Word, ∀ a ∈ opcodeRows, ∀ b ∈ opcodeRows, w &&& a.1 = a.2 → w &&& b.1 = b.2 → a = b

/-- A word of each family decodes to the instruction it stands for, at the opcode values of the table. All of them but
`0x6A05` and `0x00E0` are PRESUMED (notes/assumptions/7.md; spec/30_encoding.md R75, R83). -/
def Obligations.SampleWordsDecode : Prop :=
  decodeWord 0b0110101000000101 = .load 10 5 ∧ decodeWord 0b0000000011100000 = .clearScreen ∧
  decodeWord 0b0001001000000000 = .jump 0x200 ∧ decodeWord 0b1000000101110110 = .shiftRight 1 7 ∧
  decodeWord 0b1111111101100101 = .regLoad 15 ∧ decodeWord 0b1101000100100101 = .draw 1 2 5 ∧
  decodeWord 0b1110010110011110 = .skipIfKeyPressed 5 ∧ decodeWord 0 = .unsupported 0

/-- The fetch assembles two consecutive bytes big-endian (spec/30_encoding.md R71). -/
def Obligations.FetchReadsBigEndianWord : Prop :=
  ∀ s : State, s.pc.toNat ≤ 0xFFE → ∃ w : Word, s.fetch = .ok w ∧
    w.toNat = (s.byteAt s.pc.toNat).toNat * 256 + (s.byteAt (s.pc.toNat + 1)).toNat

/-! ### The cycle -/

/-- A step runs the instruction that the two bytes at `PC` decode to: phase 1 clears `DF` (and the outputs of the last
cycle), `exec` runs, and the tick follows unless the instruction ended in a fault (spec/00_scope.md R9). -/
def Obligations.StepRunsDecodedInstruction : Prop :=
  ∀ (s : State) (i : Instr), s.pc.toNat ≤ 0xFFE →
    decode [s.byteAt s.pc.toNat, s.byteAt (s.pc.toNat + 1)] = .ok (i, []) →
    step s = (match exec i { s with df := false, outcome := .normal, tone := false } with
      | .next t => .next (if t.outcome.isFault then t else t.tick)
      | .fault r => .fault r
      | .refused r => .refused r)

/-- The core never stops of its own accord: every cycle ends in a state (spec/60_exceptions.md R170,
spec/70_reset_and_hazards.md R210). -/
def Obligations.EveryCycleAnswersNextState : Prop :=
  ∀ s : State, ∃ t, step s = .next t

/-- Which instruction ends with which outcome, on exactly which operands, with which payload
(spec/60_exceptions.md R171 to R175; the faults are decisions D11 to D13, D16, D17, D32 of the spec). -/
def Obligations.OutcomesOfInstructions : Prop :=
  ∀ (i : Instr) (s : State), ∃ t, exec i s = .next t ∧ t.record = s.record.note t.outcome ∧
    (∀ pc w, t.outcome = .decodeFailure pc w ↔ pc = s.pc ∧ i = .unsupported w) ∧
    (∀ k pc, t.outcome = .stackFault k pc ↔ pc = s.pc ∧
      ((k = .overflow ∧ s.sp.val = 16 ∧ ∃ nnn, i = .call nnn) ∨ (k = .underflow ∧ s.sp.val = 0 ∧ i = .ret))) ∧
    (∀ k a pc, t.outcome = .accessFault k a pc ↔ pc = s.pc ∧
      ((k = .read ∧ 0 < readLength i ∧ 0x1000 < s.i.toNat + readLength i ∧ a.toNat = max s.i.toNat 0x1000) ∨
       (k = .write ∧ 0 < storeLength i ∧ (s.i.toNat < 0x50 ∨ 0x1000 < s.i.toNat + storeLength i) ∧
         a.toNat = if s.i.toNat < 0x50 then s.i.toNat else max s.i.toNat 0x1000) ∨
       (k = .key ∧ ∃ x, (i = .skipIfKeyPressed x ∨ i = .skipIfKeyNotPressed x) ∧ 15 < (s.reg x).toNat ∧
         a.toNat = (s.reg x).toNat)))

/-- A fetch above `0xFFE` is AccessFault(fetch) with the `PC` as its address (spec/20_memory.md R54; D11). -/
def Obligations.FetchFaultsAboveLastWord : Prop :=
  ∀ s : State, 0xFFE < s.pc.toNat → ∃ t, step s = .next t ∧ t.outcome = .accessFault .fetch s.pc s.pc

/-- A cycle that ends in StackFault or AccessFault changes nothing but `DF` and what it hands to the host: no tick, no
tone, `PC` stays (spec/60_exceptions.md R176; D16). -/
def Obligations.FaultingCycleHasNoEffect : Prop :=
  ∀ s t : State, step s = .next t → t.outcome.isFault = true →
    t = { s with df := false, tone := false, outcome := t.outcome, record := s.record.note t.outcome }

/-- Stepping again after a StackFault or AccessFault faults again in the same way and changes nothing at all
(spec/60_exceptions.md R177). -/
def Obligations.FaultingCycleRepeats : Prop :=
  ∀ s t : State, step s = .next t → t.outcome.isFault = true → step t = .next t

/-- The timer tick: it sees the timers the instruction of the same cycle left, counts each down to 0, raises the tone
exactly when `ST` was 1, touches nothing else, and is left out of a cycle that ends in a fault, of the instruction or of
the fetch (spec/60_exceptions.md R181). -/
def Obligations.TickCountsDownAndSoundsTone : Prop :=
  (∀ s u : State, s.pc.toNat ≤ 0xFFE →
    exec (decodeWord (wordOfBytes (s.byteAt s.pc.toNat) (s.byteAt (s.pc.toNat + 1)))) s.beginCycle = .next u →
    (u.outcome.isFault = false → ∃ t, step s = .next t ∧
      t.dt.toNat = (if u.dt.toNat = 0 then 0 else u.dt.toNat - 1) ∧
      t.st.toNat = (if u.st.toNat = 0 then 0 else u.st.toNat - 1) ∧
      (t.tone = true ↔ u.st.toNat = 1) ∧ t = { u with dt := t.dt, st := t.st, tone := t.tone }) ∧
    (u.outcome.isFault = true → step s = .next u ∧ u.dt = s.dt ∧ u.st = s.st ∧ u.tone = false)) ∧
  (∀ s : State, 0xFFE < s.pc.toNat → ∃ t, step s = .next t ∧ t.dt = s.dt ∧ t.st = s.st ∧ t.tone = false)

/-- An unsupported word: as an instruction it moves `PC` on by 2 and reports its address and itself; as a cycle it also
ticks the timers (spec/30_encoding.md R77, spec/60_exceptions.md R172; D17). -/
def Obligations.UnsupportedWordIsReported : Prop :=
  (∀ (w : Word) (s : State), ∃ t, exec (.unsupported w) s = .next t ∧ t.pc.toNat = (s.pc.toNat + 2) % 65536 ∧
    t.outcome = .decodeFailure s.pc w ∧ t = { s with pc := t.pc, outcome := t.outcome, record := t.record }) ∧
  (∀ (w : Word) (s : State), s.pc.toNat ≤ 0xFFE → (∀ row ∈ opcodeRows, w &&& row.1 ≠ row.2) →
    wordOfBytes (s.byteAt s.pc.toNat) (s.byteAt (s.pc.toNat + 1)) = w →
    ∃ t, step s = .next t ∧ t.outcome = .decodeFailure s.pc w ∧ t.pc.toNat = s.pc.toNat + 2 ∧ t.df = false ∧
      t.dt.toNat = s.dt.toNat - 1 ∧ t.st.toNat = s.st.toNat - 1 ∧ (t.tone = true ↔ s.st.toNat = 1))

/-! ### Frames: the columns of writes of the access matrix (spec/10_state.md R37) -/

/-- No instruction changes a register but its destination and, for the seven flag-writing ones, VF; one that ends in a
fault changes none. -/
def Obligations.RegisterFrame : Prop :=
  ∀ (i : Instr) (s t : State), exec i s = .next t →
    t.sameRegsBut s (writtenRegs i) ∧ (t.outcome.isFault = true → t.sameRegsBut s [])

/-- Only load-index, add-to-index and font-char-address change `I`. -/
def Obligations.IndexFrame : Prop :=
  ∀ (i : Instr) (s t : State), exec i s = .next t → writesIndex i = false → t.i = s.i

/-- Only call and return change `SP`; only call changes an entry, and only the one `SP` indexes. -/
def Obligations.StackFrame : Prop :=
  ∀ (i : Instr) (s t : State), exec i s = .next t →
    (writesStack i = false → t.sp = s.sp) ∧
    (∀ k : Fin 16, (∀ nnn, i = .call nnn → k.val ≠ s.sp.val) → t.stackEntry k = s.stackEntry k)

/-- Only bcd and reg-dump store, and only to the bytes from `I` up that their rules name: every other byte reads as
before. -/
def Obligations.MemoryFrame : Prop :=
  ∀ (i : Instr) (s t : State), exec i s = .next t →
    ∀ a : Nat, ¬ (s.indexAddress 0 ≤ a ∧ a < s.indexAddress (storeLength i)) → t.byteAt a = s.byteAt a

/-- Only clear-screen and draw change the display and the draw flag. -/
def Obligations.DisplayFrame : Prop :=
  ∀ (i : Instr) (s t : State), exec i s = .next t → writesDisplay i = false →
    (∀ r c, t.pixel r c = s.pixel r c) ∧ t.df = s.df

/-- Only set-delay changes `DT` and only set-sound changes `ST` while an instruction executes. -/
def Obligations.TimerFrame : Prop :=
  ∀ (i : Instr) (s t : State), exec i s = .next t →
    ((∀ x, i ≠ .setDelay x) → t.dt = s.dt) ∧ ((∀ x, i ≠ .setSound x) → t.st = s.st)

/-- No instruction writes the key state or the configuration, and only random uses the random input: every other
instruction leaves the index of the random input where it is, and does the same whatever that index is. The index is the
model's form of the input (notes/assumptions/3.md). -/
def Obligations.InputsAndConfigurationFrame : Prop :=
  ∀ (i : Instr) (s t : State), exec i s = .next t →
    t.keys = s.keys ∧ t.cfg = s.cfg ∧ ((∀ x nn, i ≠ .random x nn) →
      t.rndCount = s.rndCount ∧ ∀ k, exec i { s with rndCount := k } = .next { t with rndCount := k })

/-! ### Control flow -/

/-- jump nnn: `PC` is the address, nothing is added to it, and nothing else changes (spec/40_control_flow.md R101). -/
def Obligations.JumpTransfersControl : Prop :=
  ∀ (nnn : BitVec 12) (s : State), ∃ t, exec (.jump nnn) s = .next t ∧ t.onlyMovesTo s nnn.toNat

/-- The four register skips: `PC + 4` when the comparison holds, else `PC + 2`, and nothing else changes, `I` and VF
included (spec/40_control_flow.md R103 to R106). -/
def Obligations.SkipsCompareAndMovePcOnly : Prop :=
  ∀ (x y : Reg) (nn : Byte) (s : State),
    (∃ t, exec (.skipIfEqual x nn) s = .next t ∧
      t.onlyMovesTo s ((s.pc.toNat + if s.reg x = nn then 4 else 2) % 65536)) ∧
    (∃ t, exec (.skipIfNotEqual x nn) s = .next t ∧
      t.onlyMovesTo s ((s.pc.toNat + if s.reg x ≠ nn then 4 else 2) % 65536)) ∧
    (∃ t, exec (.skipIfRegEqual x y) s = .next t ∧
      t.onlyMovesTo s ((s.pc.toNat + if s.reg x = s.reg y then 4 else 2) % 65536)) ∧
    (∃ t, exec (.skipIfRegNotEqual x y) s = .next t ∧
      t.onlyMovesTo s ((s.pc.toNat + if s.reg x ≠ s.reg y then 4 else 2) % 65536))

/-- jump-offset nnn: `V[0] + nnn`, reduced to neither 12 nor 16 bits, whatever the top digit of `nnn` is
(spec/40_control_flow.md R107; D21). -/
def Obligations.JumpOffsetAddsRegisterZero : Prop :=
  ∀ (nnn : BitVec 12) (s : State), ∃ t, exec (.jumpOffset nnn) s = .next t ∧
    t.onlyMovesTo s ((s.reg 0).toNat + nnn.toNat)

/-- call nnn: on a stack that is not full the call's own address goes to the entry `SP` indexes, every other entry is
unchanged, `SP` rises by 1 and `PC` is the address; on a full stack it is StackFault(overflow) and changes nothing
(spec/40_control_flow.md R102; D15 fixes the capacity 16, D16 the fault). -/
def Obligations.CallPushesItsAddress : Prop :=
  (∀ (nnn : BitVec 12) (s : State), s.sp.val < 16 → ∃ t, exec (.call nnn) s = .next t ∧
    t.pc.toNat = nnn.toNat ∧ t.sp.val = s.sp.val + 1 ∧
    (∀ k : Fin 16, t.stackEntry k = if k.val = s.sp.val then s.pc else s.stackEntry k) ∧
    t = { s with pc := t.pc, sp := t.sp, stack := t.stack, outcome := .normal }) ∧
  (∀ (nnn : BitVec 12) (s : State), s.sp.val = 16 → ∃ t, exec (.call nnn) s = .next t ∧
    t.outcome = .stackFault .overflow s.pc ∧ t = { s with outcome := t.outcome, tone := false, record := t.record })

/-- return: on a stack that is not empty `PC` is the top entry plus 2, `SP` falls by 1, and nothing else changes, the
popped entry included; on an empty stack it is StackFault(underflow) and changes nothing (spec/40_control_flow.md R100). -/
def Obligations.ReturnPopsAndAdvances : Prop :=
  (∀ (s : State) (top : Fin 16), s.sp.val = top.val + 1 → ∃ t, exec .ret s = .next t ∧
    t.pc.toNat = ((s.stackEntry top).toNat + 2) % 65536 ∧ t.sp.val = top.val ∧
    t = { s with pc := t.pc, sp := t.sp, outcome := .normal }) ∧
  (∀ s : State, s.sp.val = 0 → ∃ t, exec .ret s = .next t ∧
    t.outcome = .stackFault .underflow s.pc ∧ t = { s with outcome := t.outcome, tone := false, record := t.record })

/-- A return from any state with the stack that a call left resumes at the instruction after the call, with `SP` as
before it (spec/95_test_vectors.md E7). -/
def Obligations.ReturnResumesAfterItsCall : Prop :=
  ∀ (nnn : BitVec 12) (s : State), s.sp.val < 16 → ∃ t, exec (.call nnn) s = .next t ∧
    ∀ t' : State, t'.sp = t.sp → t'.stack = t.stack →
      ∃ u, exec .ret t' = .next u ∧ u.outcome = .normal ∧ u.pc = s.pc + 2 ∧ u.sp = s.sp

/-! ### Registers and arithmetic -/

/-- load Vx,nn and assign Vx,Vy write their destination and advance; every other register keeps its value, VF too
unless it is the destination (spec/41_register_alu.md R120, R122). -/
def Obligations.LoadAndAssignWriteTheirRegister : Prop :=
  ∀ (x y : Reg) (nn : Byte) (s : State),
    (∃ t, exec (.load x nn) s = .next t ∧ t.completesAfter s ∧ t.reg x = nn ∧ t.sameRegsBut s [x]) ∧
    (∃ t, exec (.assign x y) s = .next t ∧ t.completesAfter s ∧ t.reg x = s.reg y ∧ t.sameRegsBut s [x])

/-- add Vx,nn wraps at 256 and writes no flag (spec/41_register_alu.md R121). -/
def Obligations.AddImmediateWrapsWithoutFlag : Prop :=
  ∀ (x : Reg) (nn : Byte) (s : State), ∃ t, exec (.addImm x nn) s = .next t ∧ t.completesAfter s ∧
    (t.reg x).toNat = ((s.reg x).toNat + nn.toNat) % 256 ∧ t.sameRegsBut s [x]

/-- or, and, xor combine bit by bit into Vx and write no flag (spec/41_register_alu.md R123 to R125). -/
def Obligations.LogicCombinesBitsWithoutFlag : Prop :=
  ∀ (x y : Reg) (s : State),
    (∃ t, exec (.orReg x y) s = .next t ∧ t.completesAfter s ∧ t.sameRegsBut s [x] ∧
      ∀ b : Nat, (t.reg x).getLsbD b = ((s.reg x).getLsbD b || (s.reg y).getLsbD b)) ∧
    (∃ t, exec (.andReg x y) s = .next t ∧ t.completesAfter s ∧ t.sameRegsBut s [x] ∧
      ∀ b : Nat, (t.reg x).getLsbD b = ((s.reg x).getLsbD b && (s.reg y).getLsbD b)) ∧
    (∃ t, exec (.xorReg x y) s = .next t ∧ t.completesAfter s ∧ t.sameRegsBut s [x] ∧
      ∀ b : Nat, (t.reg x).getLsbD b = ((s.reg x).getLsbD b ^^ (s.reg y).getLsbD b))

/-- add Vx,Vy: the sum modulo 256, then the carry into VF, which survives when `x` is 15
(spec/41_register_alu.md R126; D18 fixes the order for `x` = 15). -/
def Obligations.AddReportsCarry : Prop :=
  ∀ (x y : Reg) (s : State), ∃ t, exec (.addReg x y) s = .next t ∧ t.completesAfter s ∧
    (x ≠ 15 → (t.reg x).toNat = ((s.reg x).toNat + (s.reg y).toNat) % 256) ∧
    (t.reg 15).toNat = (if 255 < (s.reg x).toNat + (s.reg y).toNat then 1 else 0) ∧ t.sameRegsBut s [x, 15]

/-- sub and sub-reverse: the difference modulo 256, then VF = 0 exactly on a borrow, which is strict less-than, so that
equal operands give VF = 1 (spec/41_register_alu.md R127, R129; D18, D19). -/
def Obligations.SubtractionsReportNoBorrow : Prop :=
  ∀ (x y : Reg) (s : State),
    (∃ t, exec (.sub x y) s = .next t ∧ t.completesAfter s ∧
      (x ≠ 15 → (t.reg x).toNat = ((s.reg x).toNat + 256 - (s.reg y).toNat) % 256) ∧
      (t.reg 15).toNat = (if (s.reg x).toNat < (s.reg y).toNat then 0 else 1) ∧ t.sameRegsBut s [x, 15]) ∧
    (∃ t, exec (.subReverse x y) s = .next t ∧ t.completesAfter s ∧
      (x ≠ 15 → (t.reg x).toNat = ((s.reg y).toNat + 256 - (s.reg x).toNat) % 256) ∧
      (t.reg 15).toNat = (if (s.reg y).toNat < (s.reg x).toNat then 0 else 1) ∧ t.sameRegsBut s [x, 15])

/-- The shifts move Vx by one place, whatever `y` is: VF is the bit shifted out unless `x` is 15, where the result
survives (spec/41_register_alu.md R128, R130, spec/30_encoding.md R78; D2, D18). -/
def Obligations.ShiftsReportTheBitShiftedOut : Prop :=
  ∀ (x y : Reg) (s : State),
    (∃ t, exec (.shiftRight x y) s = .next t ∧ t.completesAfter s ∧ (t.reg x).toNat = (s.reg x).toNat / 2 ∧
      (x ≠ 15 → (t.reg 15).toNat = (s.reg x).toNat % 2) ∧ t.sameRegsBut s [x, 15]) ∧
    (∃ t, exec (.shiftLeft x y) s = .next t ∧ t.completesAfter s ∧ (t.reg x).toNat = (s.reg x).toNat * 2 % 256 ∧
      (x ≠ 15 → (t.reg 15).toNat = (s.reg x).toNat / 128) ∧ t.sameRegsBut s [x, 15])

/-- random Vx,nn: some byte masked with `nn`, a new one each time; every bit that is 0 in `nn` is 0 in the result. The
byte is the free value `Config.rnd` at an index that moves on (spec/41_register_alu.md R131; D22, notes/assumptions/3.md). -/
def Obligations.RandomIsMaskedByte : Prop :=
  ∀ (x : Reg) (nn : Byte) (s : State), ∃ t, exec (.random x nn) s = .next t ∧ t.completesAfter s ∧
    (∀ b : Nat, (t.reg x).getLsbD b = ((Config.rnd s.rndCount).getLsbD b && nn.getLsbD b)) ∧
    t.sameRegsBut s [x] ∧ t.rndCount = s.rndCount + 1

/-! ### Index register and memory -/

/-- load-index nnn: the zero-extended address (spec/42_index_and_memory.md R140). -/
def Obligations.LoadIndexSetsIndex : Prop :=
  ∀ (nnn : BitVec 12) (s : State), ∃ t, exec (.loadIndex nnn) s = .next t ∧ t.completesAfter s ∧
    t.i.toNat = nnn.toNat ∧ t.sameRegsBut s [] ∧ ∀ a, t.byteAt a = s.byteAt a

/-- add-to-index Vx: `I` keeps 16 bits of the sum; VF says whether the unwrapped sum passes `0x0FFF`
(spec/42_index_and_memory.md R141; D18, D20). -/
def Obligations.AddToIndexFlagsUnwrappedSum : Prop :=
  ∀ (x : Reg) (s : State), ∃ t, exec (.addToIndex x) s = .next t ∧ t.completesAfter s ∧
    t.i.toNat = (s.i.toNat + (s.reg x).toNat) % 65536 ∧
    (t.reg 15).toNat = (if 0x0FFF < s.i.toNat + (s.reg x).toNat then 1 else 0) ∧ t.sameRegsBut s [15]

/-- font-char-address Vx: five bytes a glyph, `V[x]` not masked (spec/42_index_and_memory.md R142; D29). -/
def Obligations.FontCharAddressIsFiveTimes : Prop :=
  ∀ (x : Reg) (s : State), ∃ t, exec (.fontCharAddress x) s = .next t ∧ t.completesAfter s ∧
    t.i.toNat = (s.reg x).toNat * 5 ∧ t.sameRegsBut s []

/-- bcd Vx on three writable bytes: hundreds, tens and ones at `I`, `I+1`, `I+2`; every other byte, every register and
`I` unchanged (spec/42_index_and_memory.md R143; D12 fixes which bytes are writable). -/
def Obligations.BcdStoresDecimalDigits : Prop :=
  ∀ (x : Reg) (s : State), Memory.wf s.mem = true → 0x50 ≤ s.i.toNat → s.i.toNat + 2 ≤ 0xFFF →
    ∃ t, exec (.bcd x) s = .next t ∧ t.completesAfter s ∧
      (t.byteAt s.i.toNat).toNat = (s.reg x).toNat / 100 ∧
      (t.byteAt (s.i.toNat + 1)).toNat = (s.reg x).toNat / 10 % 10 ∧
      (t.byteAt (s.i.toNat + 2)).toNat = (s.reg x).toNat % 10 ∧
      (∀ a, (a < s.i.toNat ∨ s.i.toNat + 2 < a) → t.byteAt a = s.byteAt a) ∧ t.i = s.i ∧ t.sameRegsBut s []

/-- reg-dump Vx on writable bytes: `V[k]` at `I+k` for `k` in 0..x; every other byte, every register and `I` unchanged
(spec/42_index_and_memory.md R144; D12). -/
def Obligations.RegDumpStoresRegisters : Prop :=
  ∀ (x : Reg) (s : State), Memory.wf s.mem = true → 0x50 ≤ s.i.toNat → s.i.toNat + x.val ≤ 0xFFF →
    ∃ t, exec (.regDump x) s = .next t ∧ t.completesAfter s ∧
      (∀ k : Reg, k ≤ x → t.byteAt (s.i.toNat + k.val) = s.reg k) ∧
      (∀ a, (a < s.i.toNat ∨ s.i.toNat + x.val < a) → t.byteAt a = s.byteAt a) ∧ t.i = s.i ∧ t.sameRegsBut s []

/-- reg-load Vx inside memory: `V[k]` from `I+k` for `k` in 0..x; every higher register, `I` and every byte unchanged
(spec/42_index_and_memory.md R145; D11). -/
def Obligations.RegLoadLoadsRegisters : Prop :=
  ∀ (x : Reg) (s : State), s.i.toNat + x.val ≤ 0xFFF →
    ∃ t, exec (.regLoad x) s = .next t ∧ t.completesAfter s ∧
      (∀ k : Reg, t.reg k = if k ≤ x then s.byteAt (s.i.toNat + k.val) else s.reg k) ∧
      t.i = s.i ∧ ∀ a, t.byteAt a = s.byteAt a

/-- reg-dump followed immediately by reg-load through the same index and register range leaves every register unchanged
(spec/95_test_vectors.md E8). -/
def Obligations.DumpThenLoadRestoresRegisters : Prop :=
  ∀ (x : Reg) (s : State), Memory.wf s.mem = true → 0x50 ≤ s.i.toNat → s.i.toNat + x.val ≤ 0xFFF →
    ∃ t u, exec (.regDump x) s = .next t ∧ exec (.regLoad x) t = .next u ∧
      t.outcome = .normal ∧ u.outcome = .normal ∧ ∀ k, u.reg k = s.reg k

/-- The memory primitives: a read above `0xFFF` and a write above `0xFFF` or in the font region are AccessFaults of
that address; a write elsewhere is read back, leaves every other byte alone and keeps the canonical form
(spec/20_memory.md R52, R53; D11, D12). -/
def Obligations.MemoryPrimitives : Prop :=
  ∀ (s : State) (a : Nat) (v : Byte),
    (0xFFF < a → s.memRead a = .error { kind := .read, addr := a }) ∧
    (0xFFF < a ∨ a ≤ 0x04F → s.memWrite a v = .error { kind := .write, addr := a }) ∧
    (Memory.wf s.mem = true → 0x50 ≤ a → a ≤ 0xFFF → ∃ t, s.memWrite a v = .ok t ∧ t.memRead a = .ok v ∧
      (∀ b, b ≠ a → t.byteAt b = s.byteAt b) ∧ Memory.wf t.mem = true)

/-! ### Display -/

/-- clear-screen: every pixel is 0, `DF` is set, no register is written, VF included (spec/43_display.md R150). -/
def Obligations.ClearScreenClearsEveryPixel : Prop :=
  ∀ s : State, ∃ t, exec .clearScreen s = .next t ∧ t.completesAfter s ∧ (∀ r c, t.pixel r c = false) ∧
    t.df = true ∧ t.sameRegsBut s [] ∧ t.i = s.i ∧ (∀ a, t.byteAt a = s.byteAt a) ∧ t.sp = s.sp ∧ t.stack = s.stack

/-- draw Vx,Vy,n with its rows inside memory inverts exactly the pixels its set bits fall on, under either wrap policy,
and VF says whether one of them was set; `DF` is set (spec/43_display.md R151; D4, D6 to D9, D18). -/
def Obligations.DrawFlipsCoveredPixels : Prop :=
  ∀ (x y : Reg) (n : Fin 16) (s : State), (n.val = 0 ∨ s.i.toNat + n.val ≤ 0x1000) →
    ∃ t, exec (.draw x y n) s = .next t ∧ t.completesAfter s ∧ t.df = true ∧
      (∀ r c, s.spriteCovers x y n r c → t.pixel r c = !s.pixel r c) ∧
      (∀ r c, ¬ s.spriteCovers x y n r c → t.pixel r c = s.pixel r c) ∧
      ((∃ r c, s.spriteCovers x y n r c ∧ s.pixel r c = true) → t.reg 15 = 1) ∧
      ((∀ r c, s.spriteCovers x y n r c → s.pixel r c = false) → t.reg 15 = 0) ∧ t.sameRegsBut s [15]

/-- XOR self-inverse: a second draw with the same coordinates, count, row bytes and policy, with no display write
between, gives the display back, and its VF is 1 exactly when the first left one of the drawn pixels set
(spec/43_display.md R152). -/
def Obligations.DrawTwiceRestoresDisplay : Prop :=
  ∀ (x y x' y' : Reg) (n : Fin 16) (s t t' u : State),
    exec (.draw x y n) s = .next t → t.outcome = .normal →
    t'.d = t.d → t'.cfg.wrapX = s.cfg.wrapX → t'.reg x' = s.reg x → t'.reg y' = s.reg y →
    (∀ k < n.val, t'.byteAt (t'.i.toNat + k) = s.byteAt (s.i.toNat + k)) →
    exec (.draw x' y' n) t' = .next u → u.outcome = .normal →
    (∀ r c, u.pixel r c = s.pixel r c) ∧
    (u.reg 15 = 1 ↔ ∃ r c, s.spriteCovers x y n r c ∧ t.pixel r c = true)

/-! ### Keypad and timers -/

/-- The key skips on a key number 0..15: `PC + 4` when the key is down (up, for the second), else `PC + 2`, and nothing
else changes (spec/44_keypad_and_timers.md R160, R161). -/
def Obligations.KeySkipsTestTheirKey : Prop :=
  ∀ (x : Reg) (k : Fin 16) (s : State), (s.reg x).toNat = k.val →
    (∃ t, exec (.skipIfKeyPressed x) s = .next t ∧
      t.onlyMovesTo s ((s.pc.toNat + if s.keyDown k = true then 4 else 2) % 65536)) ∧
    (∃ t, exec (.skipIfKeyNotPressed x) s = .next t ∧
      t.onlyMovesTo s ((s.pc.toNat + if s.keyDown k = false then 4 else 2) % 65536))

/-- wait-for-key: with no key down nothing changes and `PC` stays; else the lowest key that is down is captured
(spec/44_keypad_and_timers.md R162; D14). -/
def Obligations.WaitForKeyCapturesLowestKey : Prop :=
  ∀ (x : Reg) (s : State),
    ((∀ k, s.keyDown k = false) → ∃ t, exec (.waitForKey x) s = .next t ∧ t.onlyMovesTo s s.pc.toNat) ∧
    (∀ k : Fin 16, s.keyDown k = true → (∀ j < k, s.keyDown j = false) →
      ∃ t, exec (.waitForKey x) s = .next t ∧ t.completesAfter s ∧ (t.reg x).toNat = k.val ∧ t.sameRegsBut s [x])

/-- get-delay, set-delay and set-sound move a byte between Vx and a timer; the tick comes after
(spec/44_keypad_and_timers.md R163 to R165). -/
def Obligations.TimerInstructionsMoveTheirByte : Prop :=
  ∀ (x : Reg) (s : State),
    (∃ t, exec (.getDelay x) s = .next t ∧ t.completesAfter s ∧ t.reg x = s.dt ∧ t.sameRegsBut s [x] ∧
      t.dt = s.dt ∧ t.st = s.st) ∧
    (∃ t, exec (.setDelay x) s = .next t ∧ t.completesAfter s ∧ t.dt = s.reg x ∧ t.sameRegsBut s [] ∧ t.st = s.st) ∧
    (∃ t, exec (.setSound x) s = .next t ∧ t.completesAfter s ∧ t.st = s.reg x ∧ t.sameRegsBut s [] ∧ t.dt = s.dt)

/-! ### What no instruction reads (spec/10_state.md R37, columns of reads) -/

/-- An instruction other than the two key skips and wait-for-key does the same whatever keys are down. For random the two
runs agree because both read the free byte at the same index, the model's choice of notes/assumptions/3.md. -/
def Obligations.KeysReachOnlyKeyInstructions : Prop :=
  ∀ (i : Instr) (s : State) (k : BitVec 16), readsKeys i = false →
    exec i { s with keys := k } = mapNext (fun t => { t with keys := k }) (exec i s)

/-- No instruction reads `ST` or `DF`: two states that differ in nothing else are taken to states that differ in nothing
else. For random the two runs agree because both read the free byte at the same index, the model's choice of
notes/assumptions/3.md. -/
def Obligations.SoundTimerAndDrawFlagAreNeverRead : Prop :=
  ∀ (i : Instr) (s t t' : State) (b : Byte) (f : Bool), exec i s = .next t →
    exec i { s with st := b, df := f } = .next t' → { t' with st := t.st, df := t.df } = t

/-! ### Invariant, host operations, end of a run -/

/-- The invariant holds after reset. It speaks of the outputs and the record, which stand in `State` by the model's choice
(notes/assumptions/1.md, 2.md). -/
def Obligations.InvariantAtReset : Prop := State.reset.Inv

/-- Every cycle keeps the invariant, from every state that has it. Its clauses on the outputs and the record are about
fields that stand in `State` by the model's choice (notes/assumptions/1.md, 2.md). -/
def Obligations.StepKeepsInvariant : Prop :=
  ∀ s t : State, s.Inv → step s = .next t → t.Inv

/-- Every state of every session has the invariant, whatever the image, the configuration, the memory at power-on and
the host's events are (spec/70_reset_and_hazards.md R204, R205). That a machine powers on in any state with canonical
memory is the model's choice (notes/assumptions/12.md), and so are the outputs and the record that the invariant speaks of
(notes/assumptions/1.md, 2.md). -/
def Obligations.ReachableStatesMeetInvariant : Prop :=
  ∀ s : State, Reachable s → s.Inv

/-- The font is never mutated, by no cycle and no host operation; neither is the configuration
(spec/20_memory.md R51, spec/70_reset_and_hazards.md R200; that a store there faults is D12). -/
def Obligations.FontIsNeverMutated : Prop :=
  ∀ (e : HostEvent) (s t : State), handle e s = .next t →
    t.cfg = s.cfg ∧ ∀ a < 0x50, t.byteAt a = s.byteAt a ∧ t.byteAt a = s.cfg.font[a]!

/-- The host's reset gives every piece of state the value of spec/10_state.md R34, zeroes the program region and leaves
the rest of memory as it was (spec/70_reset_and_hazards.md R201; `DF` and the stack entries are D24). -/
def Obligations.HostResetGivesLaunchValues : Prop :=
  ∀ s : State, ∃ t, handle .reset s = .next t ∧ (∀ r, t.reg r = 0) ∧ t.i = 0 ∧ t.pc = 0x200 ∧ t.sp.val = 0 ∧
    (∀ k, t.stackEntry k = 0) ∧ (∀ r c, t.pixel r c = false) ∧ t.dt = 0 ∧ t.st = 0 ∧ (∀ k, t.keyDown k = false) ∧
    t.df = false ∧ t.cfg = s.cfg ∧ (∀ a < 0x200, t.byteAt a = s.byteAt a) ∧
    ∀ a, 0x200 ≤ a → a ≤ 0xFFF → t.byteAt a = 0

/-- loadProgram: up to 3584 bytes are copied verbatim from `0x200` up and nothing else changes; a longer image is
refused and changes nothing (spec/70_reset_and_hazards.md R202; D26). -/
def Obligations.LoadProgramCopiesOrRefuses : Prop :=
  ∀ (bytes : List Byte) (s : State), Memory.wf s.mem = true →
    (bytes.length ≤ 3584 → (loadProgram bytes s).1 = .ok ∧
      (∀ (k : Nat) (h : k < bytes.length), (loadProgram bytes s).2.byteAt (0x200 + k) = bytes[k]) ∧
      (∀ a, (a < 0x200 ∨ 0x200 + bytes.length ≤ a) → (loadProgram bytes s).2.byteAt a = s.byteAt a) ∧
      { (loadProgram bytes s).2 with mem := s.mem } = s) ∧
    (3584 < bytes.length → loadProgram bytes s = (.imageTooLarge, s))

/-- The key latch holds what the host set, in every later cycle (spec/70_reset_and_hazards.md R203). -/
def Obligations.KeysStayAsTheHostSetThem : Prop :=
  ∀ (k : BitVec 16) (s t u : State), handle (.setKeys k) s = .next t → handle .cycle t = .next u →
    t = { s with keys := k } ∧ u.keys = k

/-- A halted program stays halted: a cycle leaves all state unchanged except that `DF` is 0 and the timers count down
(spec/70_reset_and_hazards.md R210; D30). -/
def Obligations.HaltedProgramStaysHalted : Prop :=
  ∀ (s : State) (a : BitVec 12), s.haltedAt a → ∃ t, step s = .next t ∧ t.haltedAt a ∧
    t.dt.toNat = s.dt.toNat - 1 ∧ t.st.toNat = s.st.toNat - 1 ∧
    t = { s with df := false, dt := t.dt, st := t.st, tone := t.tone, outcome := .normal }
end

