-- ==== Sys2Proof/Laws/Config.lean ====
section
/-! SUPPORT. The value of each parameter of spec/00_scope.md R6, and the regions of memory in numbers. -/
namespace Sys2Proof.Config

@[simp] theorem hw_memSize : hw.memSize = 4096 := rfl
@[simp] theorem hw_fontBase : hw.fontBase = 0 := rfl
@[simp] theorem hw_fontSize : hw.fontSize = 80 := rfl
@[simp] theorem hw_glyphBytes : hw.glyphBytes = 5 := rfl
@[simp] theorem hw_progBase : hw.progBase = 512 := rfl
@[simp] theorem hw_nregs : hw.nregs = 16 := rfl
@[simp] theorem hw_iWidth : hw.iWidth = 16 := rfl
@[simp] theorem hw_pcWidth : hw.pcWidth = 16 := rfl
@[simp] theorem hw_stackCapacity : hw.stackCapacity = 16 := rfl
@[simp] theorem hw_stackEntryWidth : hw.stackEntryWidth = 16 := rfl
@[simp] theorem hw_displayWidth : hw.displayWidth = 64 := rfl
@[simp] theorem hw_displayHeight : hw.displayHeight = 32 := rfl
@[simp] theorem hw_nkeys : hw.nkeys = 16 := rfl
@[simp] theorem hw_timerWidth : hw.timerWidth = 8 := rfl
@[simp] theorem hw_insnBytes : hw.insnBytes = 2 := rfl

/-- The font region is the first 80 addresses (spec/20_memory.md R51). -/
theorem inFont_iff (a : Nat) : InFont a ↔ a < 80 := by
  simp [InFont]

/-! The bounds of the index types, in numbers. -/

theorem reg_lt (x : Reg) : x.val < 16 := x.isLt
theorem stackIndex_lt (k : StackIndex) : k.val < 16 := k.isLt
theorem key_lt (k : Key) : k.val < 16 := k.isLt
theorem row_lt (r : Row) : r.val < 32 := r.isLt
theorem column_lt (c : Column) : c.val < 64 := c.isLt

end Sys2Proof.Config
end

