-- ==== Sys2Proof/Laws/State.lean ====
section
/-! SUPPORT. One lemma per field per update of the state, each true by `rfl`, so that no proof unfolds a record
update. -/
namespace Sys2Proof.Machine.State

variable (s : State)

/-! ### setReg -/

@[simp] theorem setReg_cfg (r : Reg) (b : Byte) : (s.setReg r b).cfg = s.cfg := rfl
@[simp] theorem setReg_v (r : Reg) (b : Byte) : (s.setReg r b).v = s.v.set r.val b := rfl
@[simp] theorem setReg_i (r : Reg) (b : Byte) : (s.setReg r b).i = s.i := rfl
@[simp] theorem setReg_pc (r : Reg) (b : Byte) : (s.setReg r b).pc = s.pc := rfl
@[simp] theorem setReg_sp (r : Reg) (b : Byte) : (s.setReg r b).sp = s.sp := rfl
@[simp] theorem setReg_stack (r : Reg) (b : Byte) : (s.setReg r b).stack = s.stack := rfl
@[simp] theorem setReg_mem (r : Reg) (b : Byte) : (s.setReg r b).mem = s.mem := rfl
@[simp] theorem setReg_d (r : Reg) (b : Byte) : (s.setReg r b).d = s.d := rfl
@[simp] theorem setReg_dt (r : Reg) (b : Byte) : (s.setReg r b).dt = s.dt := rfl
@[simp] theorem setReg_st (r : Reg) (b : Byte) : (s.setReg r b).st = s.st := rfl
@[simp] theorem setReg_keys (r : Reg) (b : Byte) : (s.setReg r b).keys = s.keys := rfl
@[simp] theorem setReg_df (r : Reg) (b : Byte) : (s.setReg r b).df = s.df := rfl
@[simp] theorem setReg_outcome (r : Reg) (b : Byte) : (s.setReg r b).outcome = s.outcome := rfl
@[simp] theorem setReg_tone (r : Reg) (b : Byte) : (s.setReg r b).tone = s.tone := rfl
@[simp] theorem setReg_rndCount (r : Reg) (b : Byte) : (s.setReg r b).rndCount = s.rndCount := rfl
@[simp] theorem setReg_record (r : Reg) (b : Byte) : (s.setReg r b).record = s.record := rfl

/-! ### setFlag -/

@[simp] theorem setFlag_cfg (b : Byte) : (s.setFlag b).cfg = s.cfg := rfl
@[simp] theorem setFlag_v (b : Byte) : (s.setFlag b).v = s.v.set 15 b := rfl
@[simp] theorem setFlag_i (b : Byte) : (s.setFlag b).i = s.i := rfl
@[simp] theorem setFlag_pc (b : Byte) : (s.setFlag b).pc = s.pc := rfl
@[simp] theorem setFlag_sp (b : Byte) : (s.setFlag b).sp = s.sp := rfl
@[simp] theorem setFlag_stack (b : Byte) : (s.setFlag b).stack = s.stack := rfl
@[simp] theorem setFlag_mem (b : Byte) : (s.setFlag b).mem = s.mem := rfl
@[simp] theorem setFlag_d (b : Byte) : (s.setFlag b).d = s.d := rfl
@[simp] theorem setFlag_dt (b : Byte) : (s.setFlag b).dt = s.dt := rfl
@[simp] theorem setFlag_st (b : Byte) : (s.setFlag b).st = s.st := rfl
@[simp] theorem setFlag_keys (b : Byte) : (s.setFlag b).keys = s.keys := rfl
@[simp] theorem setFlag_df (b : Byte) : (s.setFlag b).df = s.df := rfl
@[simp] theorem setFlag_outcome (b : Byte) : (s.setFlag b).outcome = s.outcome := rfl
@[simp] theorem setFlag_tone (b : Byte) : (s.setFlag b).tone = s.tone := rfl
@[simp] theorem setFlag_rndCount (b : Byte) : (s.setFlag b).rndCount = s.rndCount := rfl
@[simp] theorem setFlag_record (b : Byte) : (s.setFlag b).record = s.record := rfl

/-! ### setIndex -/

@[simp] theorem setIndex_cfg (w : BitVec Config.hw.iWidth) : (s.setIndex w).cfg = s.cfg := rfl
@[simp] theorem setIndex_v (w : BitVec Config.hw.iWidth) : (s.setIndex w).v = s.v := rfl
@[simp] theorem setIndex_i (w : BitVec Config.hw.iWidth) : (s.setIndex w).i = w := rfl
@[simp] theorem setIndex_pc (w : BitVec Config.hw.iWidth) : (s.setIndex w).pc = s.pc := rfl
@[simp] theorem setIndex_sp (w : BitVec Config.hw.iWidth) : (s.setIndex w).sp = s.sp := rfl
@[simp] theorem setIndex_stack (w : BitVec Config.hw.iWidth) : (s.setIndex w).stack = s.stack := rfl
@[simp] theorem setIndex_mem (w : BitVec Config.hw.iWidth) : (s.setIndex w).mem = s.mem := rfl
@[simp] theorem setIndex_d (w : BitVec Config.hw.iWidth) : (s.setIndex w).d = s.d := rfl
@[simp] theorem setIndex_dt (w : BitVec Config.hw.iWidth) : (s.setIndex w).dt = s.dt := rfl
@[simp] theorem setIndex_st (w : BitVec Config.hw.iWidth) : (s.setIndex w).st = s.st := rfl
@[simp] theorem setIndex_keys (w : BitVec Config.hw.iWidth) : (s.setIndex w).keys = s.keys := rfl
@[simp] theorem setIndex_df (w : BitVec Config.hw.iWidth) : (s.setIndex w).df = s.df := rfl
@[simp] theorem setIndex_outcome (w : BitVec Config.hw.iWidth) : (s.setIndex w).outcome = s.outcome := rfl
@[simp] theorem setIndex_tone (w : BitVec Config.hw.iWidth) : (s.setIndex w).tone = s.tone := rfl
@[simp] theorem setIndex_rndCount (w : BitVec Config.hw.iWidth) : (s.setIndex w).rndCount = s.rndCount := rfl
@[simp] theorem setIndex_record (w : BitVec Config.hw.iWidth) : (s.setIndex w).record = s.record := rfl

/-! ### setPc -/

@[simp] theorem setPc_cfg (w : Word) : (s.setPc w).cfg = s.cfg := rfl
@[simp] theorem setPc_v (w : Word) : (s.setPc w).v = s.v := rfl
@[simp] theorem setPc_i (w : Word) : (s.setPc w).i = s.i := rfl
@[simp] theorem setPc_pc (w : Word) : (s.setPc w).pc = w := rfl
@[simp] theorem setPc_sp (w : Word) : (s.setPc w).sp = s.sp := rfl
@[simp] theorem setPc_stack (w : Word) : (s.setPc w).stack = s.stack := rfl
@[simp] theorem setPc_mem (w : Word) : (s.setPc w).mem = s.mem := rfl
@[simp] theorem setPc_d (w : Word) : (s.setPc w).d = s.d := rfl
@[simp] theorem setPc_dt (w : Word) : (s.setPc w).dt = s.dt := rfl
@[simp] theorem setPc_st (w : Word) : (s.setPc w).st = s.st := rfl
@[simp] theorem setPc_keys (w : Word) : (s.setPc w).keys = s.keys := rfl
@[simp] theorem setPc_df (w : Word) : (s.setPc w).df = s.df := rfl
@[simp] theorem setPc_outcome (w : Word) : (s.setPc w).outcome = s.outcome := rfl
@[simp] theorem setPc_tone (w : Word) : (s.setPc w).tone = s.tone := rfl
@[simp] theorem setPc_rndCount (w : Word) : (s.setPc w).rndCount = s.rndCount := rfl
@[simp] theorem setPc_record (w : Word) : (s.setPc w).record = s.record := rfl

/-! ### advance -/

@[simp] theorem advance_cfg : (s.advance).cfg = s.cfg := rfl
@[simp] theorem advance_v : (s.advance).v = s.v := rfl
@[simp] theorem advance_i : (s.advance).i = s.i := rfl
@[simp] theorem advance_pc : (s.advance).pc = s.pc + 2 := rfl
@[simp] theorem advance_sp : (s.advance).sp = s.sp := rfl
@[simp] theorem advance_stack : (s.advance).stack = s.stack := rfl
@[simp] theorem advance_mem : (s.advance).mem = s.mem := rfl
@[simp] theorem advance_d : (s.advance).d = s.d := rfl
@[simp] theorem advance_dt : (s.advance).dt = s.dt := rfl
@[simp] theorem advance_st : (s.advance).st = s.st := rfl
@[simp] theorem advance_keys : (s.advance).keys = s.keys := rfl
@[simp] theorem advance_df : (s.advance).df = s.df := rfl
@[simp] theorem advance_outcome : (s.advance).outcome = s.outcome := rfl
@[simp] theorem advance_tone : (s.advance).tone = s.tone := rfl
@[simp] theorem advance_rndCount : (s.advance).rndCount = s.rndCount := rfl
@[simp] theorem advance_record : (s.advance).record = s.record := rfl

/-! ### skipWhen -/

@[simp] theorem skipWhen_cfg (c : Bool) : (s.skipWhen c).cfg = s.cfg := rfl
@[simp] theorem skipWhen_v (c : Bool) : (s.skipWhen c).v = s.v := rfl
@[simp] theorem skipWhen_i (c : Bool) : (s.skipWhen c).i = s.i := rfl
@[simp] theorem skipWhen_pc (c : Bool) : (s.skipWhen c).pc = if c then s.pc + 4 else s.pc + 2 := rfl
@[simp] theorem skipWhen_sp (c : Bool) : (s.skipWhen c).sp = s.sp := rfl
@[simp] theorem skipWhen_stack (c : Bool) : (s.skipWhen c).stack = s.stack := rfl
@[simp] theorem skipWhen_mem (c : Bool) : (s.skipWhen c).mem = s.mem := rfl
@[simp] theorem skipWhen_d (c : Bool) : (s.skipWhen c).d = s.d := rfl
@[simp] theorem skipWhen_dt (c : Bool) : (s.skipWhen c).dt = s.dt := rfl
@[simp] theorem skipWhen_st (c : Bool) : (s.skipWhen c).st = s.st := rfl
@[simp] theorem skipWhen_keys (c : Bool) : (s.skipWhen c).keys = s.keys := rfl
@[simp] theorem skipWhen_df (c : Bool) : (s.skipWhen c).df = s.df := rfl
@[simp] theorem skipWhen_outcome (c : Bool) : (s.skipWhen c).outcome = s.outcome := rfl
@[simp] theorem skipWhen_tone (c : Bool) : (s.skipWhen c).tone = s.tone := rfl
@[simp] theorem skipWhen_rndCount (c : Bool) : (s.skipWhen c).rndCount = s.rndCount := rfl
@[simp] theorem skipWhen_record (c : Bool) : (s.skipWhen c).record = s.record := rfl

/-! ### setDelay -/

@[simp] theorem setDelay_cfg (b : Byte) : (s.setDelay b).cfg = s.cfg := rfl
@[simp] theorem setDelay_v (b : Byte) : (s.setDelay b).v = s.v := rfl
@[simp] theorem setDelay_i (b : Byte) : (s.setDelay b).i = s.i := rfl
@[simp] theorem setDelay_pc (b : Byte) : (s.setDelay b).pc = s.pc := rfl
@[simp] theorem setDelay_sp (b : Byte) : (s.setDelay b).sp = s.sp := rfl
@[simp] theorem setDelay_stack (b : Byte) : (s.setDelay b).stack = s.stack := rfl
@[simp] theorem setDelay_mem (b : Byte) : (s.setDelay b).mem = s.mem := rfl
@[simp] theorem setDelay_d (b : Byte) : (s.setDelay b).d = s.d := rfl
@[simp] theorem setDelay_dt (b : Byte) : (s.setDelay b).dt = b := rfl
@[simp] theorem setDelay_st (b : Byte) : (s.setDelay b).st = s.st := rfl
@[simp] theorem setDelay_keys (b : Byte) : (s.setDelay b).keys = s.keys := rfl
@[simp] theorem setDelay_df (b : Byte) : (s.setDelay b).df = s.df := rfl
@[simp] theorem setDelay_outcome (b : Byte) : (s.setDelay b).outcome = s.outcome := rfl
@[simp] theorem setDelay_tone (b : Byte) : (s.setDelay b).tone = s.tone := rfl
@[simp] theorem setDelay_rndCount (b : Byte) : (s.setDelay b).rndCount = s.rndCount := rfl
@[simp] theorem setDelay_record (b : Byte) : (s.setDelay b).record = s.record := rfl

/-! ### setSound -/

@[simp] theorem setSound_cfg (b : Byte) : (s.setSound b).cfg = s.cfg := rfl
@[simp] theorem setSound_v (b : Byte) : (s.setSound b).v = s.v := rfl
@[simp] theorem setSound_i (b : Byte) : (s.setSound b).i = s.i := rfl
@[simp] theorem setSound_pc (b : Byte) : (s.setSound b).pc = s.pc := rfl
@[simp] theorem setSound_sp (b : Byte) : (s.setSound b).sp = s.sp := rfl
@[simp] theorem setSound_stack (b : Byte) : (s.setSound b).stack = s.stack := rfl
@[simp] theorem setSound_mem (b : Byte) : (s.setSound b).mem = s.mem := rfl
@[simp] theorem setSound_d (b : Byte) : (s.setSound b).d = s.d := rfl
@[simp] theorem setSound_dt (b : Byte) : (s.setSound b).dt = s.dt := rfl
@[simp] theorem setSound_st (b : Byte) : (s.setSound b).st = b := rfl
@[simp] theorem setSound_keys (b : Byte) : (s.setSound b).keys = s.keys := rfl
@[simp] theorem setSound_df (b : Byte) : (s.setSound b).df = s.df := rfl
@[simp] theorem setSound_outcome (b : Byte) : (s.setSound b).outcome = s.outcome := rfl
@[simp] theorem setSound_tone (b : Byte) : (s.setSound b).tone = s.tone := rfl
@[simp] theorem setSound_rndCount (b : Byte) : (s.setSound b).rndCount = s.rndCount := rfl
@[simp] theorem setSound_record (b : Byte) : (s.setSound b).record = s.record := rfl

/-! ### setByte -/

@[simp] theorem setByte_cfg (a : Nat) (b : Byte) : (s.setByte a b).cfg = s.cfg := rfl
@[simp] theorem setByte_v (a : Nat) (b : Byte) : (s.setByte a b).v = s.v := rfl
@[simp] theorem setByte_i (a : Nat) (b : Byte) : (s.setByte a b).i = s.i := rfl
@[simp] theorem setByte_pc (a : Nat) (b : Byte) : (s.setByte a b).pc = s.pc := rfl
@[simp] theorem setByte_sp (a : Nat) (b : Byte) : (s.setByte a b).sp = s.sp := rfl
@[simp] theorem setByte_stack (a : Nat) (b : Byte) : (s.setByte a b).stack = s.stack := rfl
@[simp] theorem setByte_mem (a : Nat) (b : Byte) : (s.setByte a b).mem = Memory.writeByte s.mem a b := rfl
@[simp] theorem setByte_d (a : Nat) (b : Byte) : (s.setByte a b).d = s.d := rfl
@[simp] theorem setByte_dt (a : Nat) (b : Byte) : (s.setByte a b).dt = s.dt := rfl
@[simp] theorem setByte_st (a : Nat) (b : Byte) : (s.setByte a b).st = s.st := rfl
@[simp] theorem setByte_keys (a : Nat) (b : Byte) : (s.setByte a b).keys = s.keys := rfl
@[simp] theorem setByte_df (a : Nat) (b : Byte) : (s.setByte a b).df = s.df := rfl
@[simp] theorem setByte_outcome (a : Nat) (b : Byte) : (s.setByte a b).outcome = s.outcome := rfl
@[simp] theorem setByte_tone (a : Nat) (b : Byte) : (s.setByte a b).tone = s.tone := rfl
@[simp] theorem setByte_rndCount (a : Nat) (b : Byte) : (s.setByte a b).rndCount = s.rndCount := rfl
@[simp] theorem setByte_record (a : Nat) (b : Byte) : (s.setByte a b).record = s.record := rfl

/-! ### setDisplay -/

@[simp] theorem setDisplay_cfg (e : Display) : (s.setDisplay e).cfg = s.cfg := rfl
@[simp] theorem setDisplay_v (e : Display) : (s.setDisplay e).v = s.v := rfl
@[simp] theorem setDisplay_i (e : Display) : (s.setDisplay e).i = s.i := rfl
@[simp] theorem setDisplay_pc (e : Display) : (s.setDisplay e).pc = s.pc := rfl
@[simp] theorem setDisplay_sp (e : Display) : (s.setDisplay e).sp = s.sp := rfl
@[simp] theorem setDisplay_stack (e : Display) : (s.setDisplay e).stack = s.stack := rfl
@[simp] theorem setDisplay_mem (e : Display) : (s.setDisplay e).mem = s.mem := rfl
@[simp] theorem setDisplay_d (e : Display) : (s.setDisplay e).d = e := rfl
@[simp] theorem setDisplay_dt (e : Display) : (s.setDisplay e).dt = s.dt := rfl
@[simp] theorem setDisplay_st (e : Display) : (s.setDisplay e).st = s.st := rfl
@[simp] theorem setDisplay_keys (e : Display) : (s.setDisplay e).keys = s.keys := rfl
@[simp] theorem setDisplay_df (e : Display) : (s.setDisplay e).df = true := rfl
@[simp] theorem setDisplay_outcome (e : Display) : (s.setDisplay e).outcome = s.outcome := rfl
@[simp] theorem setDisplay_tone (e : Display) : (s.setDisplay e).tone = s.tone := rfl
@[simp] theorem setDisplay_rndCount (e : Display) : (s.setDisplay e).rndCount = s.rndCount := rfl
@[simp] theorem setDisplay_record (e : Display) : (s.setDisplay e).record = s.record := rfl

/-! ### drawRandom -/

@[simp] theorem drawRandom_cfg : (s.drawRandom).cfg = s.cfg := rfl
@[simp] theorem drawRandom_v : (s.drawRandom).v = s.v := rfl
@[simp] theorem drawRandom_i : (s.drawRandom).i = s.i := rfl
@[simp] theorem drawRandom_pc : (s.drawRandom).pc = s.pc := rfl
@[simp] theorem drawRandom_sp : (s.drawRandom).sp = s.sp := rfl
@[simp] theorem drawRandom_stack : (s.drawRandom).stack = s.stack := rfl
@[simp] theorem drawRandom_mem : (s.drawRandom).mem = s.mem := rfl
@[simp] theorem drawRandom_d : (s.drawRandom).d = s.d := rfl
@[simp] theorem drawRandom_dt : (s.drawRandom).dt = s.dt := rfl
@[simp] theorem drawRandom_st : (s.drawRandom).st = s.st := rfl
@[simp] theorem drawRandom_keys : (s.drawRandom).keys = s.keys := rfl
@[simp] theorem drawRandom_df : (s.drawRandom).df = s.df := rfl
@[simp] theorem drawRandom_outcome : (s.drawRandom).outcome = s.outcome := rfl
@[simp] theorem drawRandom_tone : (s.drawRandom).tone = s.tone := rfl
@[simp] theorem drawRandom_rndCount : (s.drawRandom).rndCount = s.rndCount + 1 := rfl
@[simp] theorem drawRandom_record : (s.drawRandom).record = s.record := rfl

/-! ### report -/

@[simp] theorem report_cfg (o : CycleOutcome) : (s.report o).cfg = s.cfg := rfl
@[simp] theorem report_v (o : CycleOutcome) : (s.report o).v = s.v := rfl
@[simp] theorem report_i (o : CycleOutcome) : (s.report o).i = s.i := rfl
@[simp] theorem report_pc (o : CycleOutcome) : (s.report o).pc = s.pc := rfl
@[simp] theorem report_sp (o : CycleOutcome) : (s.report o).sp = s.sp := rfl
@[simp] theorem report_stack (o : CycleOutcome) : (s.report o).stack = s.stack := rfl
@[simp] theorem report_mem (o : CycleOutcome) : (s.report o).mem = s.mem := rfl
@[simp] theorem report_d (o : CycleOutcome) : (s.report o).d = s.d := rfl
@[simp] theorem report_dt (o : CycleOutcome) : (s.report o).dt = s.dt := rfl
@[simp] theorem report_st (o : CycleOutcome) : (s.report o).st = s.st := rfl
@[simp] theorem report_keys (o : CycleOutcome) : (s.report o).keys = s.keys := rfl
@[simp] theorem report_df (o : CycleOutcome) : (s.report o).df = s.df := rfl
@[simp] theorem report_outcome (o : CycleOutcome) : (s.report o).outcome = o := rfl
@[simp] theorem report_tone (o : CycleOutcome) : (s.report o).tone = s.tone := rfl
@[simp] theorem report_rndCount (o : CycleOutcome) : (s.report o).rndCount = s.rndCount := rfl
@[simp] theorem report_record (o : CycleOutcome) : (s.report o).record = s.record.note o := rfl

/-! ### beginCycle -/

@[simp] theorem beginCycle_cfg : (s.beginCycle).cfg = s.cfg := rfl
@[simp] theorem beginCycle_v : (s.beginCycle).v = s.v := rfl
@[simp] theorem beginCycle_i : (s.beginCycle).i = s.i := rfl
@[simp] theorem beginCycle_pc : (s.beginCycle).pc = s.pc := rfl
@[simp] theorem beginCycle_sp : (s.beginCycle).sp = s.sp := rfl
@[simp] theorem beginCycle_stack : (s.beginCycle).stack = s.stack := rfl
@[simp] theorem beginCycle_mem : (s.beginCycle).mem = s.mem := rfl
@[simp] theorem beginCycle_d : (s.beginCycle).d = s.d := rfl
@[simp] theorem beginCycle_dt : (s.beginCycle).dt = s.dt := rfl
@[simp] theorem beginCycle_st : (s.beginCycle).st = s.st := rfl
@[simp] theorem beginCycle_keys : (s.beginCycle).keys = s.keys := rfl
@[simp] theorem beginCycle_df : (s.beginCycle).df = false := rfl
@[simp] theorem beginCycle_outcome : (s.beginCycle).outcome = .normal := rfl
@[simp] theorem beginCycle_tone : (s.beginCycle).tone = false := rfl
@[simp] theorem beginCycle_rndCount : (s.beginCycle).rndCount = s.rndCount := rfl
@[simp] theorem beginCycle_record : (s.beginCycle).record = s.record := rfl

/-! ### tick -/

@[simp] theorem tick_cfg : (s.tick).cfg = s.cfg := rfl
@[simp] theorem tick_v : (s.tick).v = s.v := rfl
@[simp] theorem tick_i : (s.tick).i = s.i := rfl
@[simp] theorem tick_pc : (s.tick).pc = s.pc := rfl
@[simp] theorem tick_sp : (s.tick).sp = s.sp := rfl
@[simp] theorem tick_stack : (s.tick).stack = s.stack := rfl
@[simp] theorem tick_mem : (s.tick).mem = s.mem := rfl
@[simp] theorem tick_d : (s.tick).d = s.d := rfl
@[simp] theorem tick_dt : (s.tick).dt = countDown s.dt := rfl
@[simp] theorem tick_st : (s.tick).st = countDown s.st := rfl
@[simp] theorem tick_keys : (s.tick).keys = s.keys := rfl
@[simp] theorem tick_df : (s.tick).df = s.df := rfl
@[simp] theorem tick_outcome : (s.tick).outcome = s.outcome := rfl
@[simp] theorem tick_tone : (s.tick).tone = decide (s.st = 1) := rfl
@[simp] theorem tick_rndCount : (s.tick).rndCount = s.rndCount := rfl
@[simp] theorem tick_record : (s.tick).record = s.record := rfl

end Sys2Proof.Machine.State
end

