-- ==== Sys2Proof/Laws/Access.lean ====
section
/-! SUPPORT. What each accessor (register, byte, pixel, stack entry) reads after each update. -/
namespace Sys2Proof.Machine.State

variable (s : State)

/-! ### The bounds of the numeric fields, in numbers -/

theorem pc_lt : s.pc.toNat < 65536 := s.pc.isLt
theorem i_lt : s.i.toNat < 65536 := s.i.isLt
theorem sp_le : s.sp.val ≤ 16 := Nat.le_of_lt_succ s.sp.isLt
theorem dt_lt : s.dt.toNat < 256 := s.dt.isLt
theorem st_lt : s.st.toNat < 256 := s.st.isLt
theorem reg_toNat_lt (r : Reg) : (s.reg r).toNat < 256 := (s.reg r).isLt

/-! ### The program counter in numbers -/

theorem toNat_pc_add_two (w : Word) : (w + 2).toNat = (w.toNat + 2) % 65536 := BitVec.toNat_add w 2

theorem toNat_pc_add_four (w : Word) : (w + 4).toNat = (w.toNat + 4) % 65536 := BitVec.toNat_add w 4

/-- "advance" in numbers (spec/00_scope.md R11). -/
theorem toNat_pc_advance : s.advance.pc.toNat = (s.pc.toNat + 2) % 65536 := toNat_pc_add_two s.pc

/-- "skip" in numbers (spec/00_scope.md R11). -/
theorem toNat_pc_skipWhen (c : Bool) : (s.skipWhen c).pc.toNat = (s.pc.toNat + if c then 4 else 2) % 65536 := by
  cases c
  · exact toNat_pc_add_two s.pc
  · exact toNat_pc_add_four s.pc

/-! ### Registers -/

theorem reg_setReg (r q : Reg) (b : Byte) : (s.setReg r b).reg q = if q = r then b else s.reg q := by
  simp only [reg, setReg_v, Vector.getElem_set]
  split <;> simp_all [Fin.ext_iff, eq_comm]

@[simp] theorem reg_setReg_self (r : Reg) (b : Byte) : (s.setReg r b).reg r = b := by simp [reg_setReg]

theorem reg_setReg_of_ne {r q : Reg} (b : Byte) (h : q ≠ r) : (s.setReg r b).reg q = s.reg q := by
  simp [reg_setReg, h]

theorem reg_setFlag (q : Reg) (b : Byte) : (s.setFlag b).reg q = if q = 15 then b else s.reg q := reg_setReg s 15 q b

@[simp] theorem reg_setIndex (w : Word) (q : Reg) : (s.setIndex w).reg q = s.reg q := rfl
@[simp] theorem reg_setPc (w : Word) (q : Reg) : (s.setPc w).reg q = s.reg q := rfl
@[simp] theorem reg_advance (q : Reg) : s.advance.reg q = s.reg q := rfl
@[simp] theorem reg_skipWhen (c : Bool) (q : Reg) : (s.skipWhen c).reg q = s.reg q := rfl
@[simp] theorem reg_setDelay (b : Byte) (q : Reg) : (s.setDelay b).reg q = s.reg q := rfl
@[simp] theorem reg_setSound (b : Byte) (q : Reg) : (s.setSound b).reg q = s.reg q := rfl
@[simp] theorem reg_setByte (a : Nat) (b : Byte) (q : Reg) : (s.setByte a b).reg q = s.reg q := rfl
@[simp] theorem reg_setDisplay (e : Display) (q : Reg) : (s.setDisplay e).reg q = s.reg q := rfl
@[simp] theorem reg_drawRandom (q : Reg) : s.drawRandom.reg q = s.reg q := rfl
@[simp] theorem reg_report (o : CycleOutcome) (q : Reg) : (s.report o).reg q = s.reg q := rfl
@[simp] theorem reg_beginCycle (q : Reg) : s.beginCycle.reg q = s.reg q := rfl
@[simp] theorem reg_tick (q : Reg) : s.tick.reg q = s.reg q := rfl

/-! ### Bytes -/

@[simp] theorem byteAt_setReg (r : Reg) (b : Byte) (a : Nat) : (s.setReg r b).byteAt a = s.byteAt a := rfl
@[simp] theorem byteAt_setFlag (b : Byte) (a : Nat) : (s.setFlag b).byteAt a = s.byteAt a := rfl
@[simp] theorem byteAt_setIndex (w : Word) (a : Nat) : (s.setIndex w).byteAt a = s.byteAt a := rfl
@[simp] theorem byteAt_setPc (w : Word) (a : Nat) : (s.setPc w).byteAt a = s.byteAt a := rfl
@[simp] theorem byteAt_advance (a : Nat) : s.advance.byteAt a = s.byteAt a := rfl
@[simp] theorem byteAt_skipWhen (c : Bool) (a : Nat) : (s.skipWhen c).byteAt a = s.byteAt a := rfl
@[simp] theorem byteAt_setDelay (b : Byte) (a : Nat) : (s.setDelay b).byteAt a = s.byteAt a := rfl
@[simp] theorem byteAt_setSound (b : Byte) (a : Nat) : (s.setSound b).byteAt a = s.byteAt a := rfl
@[simp] theorem byteAt_setDisplay (e : Display) (a : Nat) : (s.setDisplay e).byteAt a = s.byteAt a := rfl
@[simp] theorem byteAt_drawRandom (a : Nat) : s.drawRandom.byteAt a = s.byteAt a := rfl
@[simp] theorem byteAt_report (o : CycleOutcome) (a : Nat) : (s.report o).byteAt a = s.byteAt a := rfl
@[simp] theorem byteAt_beginCycle (a : Nat) : s.beginCycle.byteAt a = s.byteAt a := rfl
@[simp] theorem byteAt_tick (a : Nat) : s.tick.byteAt a = s.byteAt a := rfl

/-! ### Pixels and stack entries -/

@[simp] theorem pixel_setReg (r : Reg) (b : Byte) (p : Fin 32) (c : Fin 64) : (s.setReg r b).pixel p c = s.pixel p c := rfl
@[simp] theorem pixel_setFlag (b : Byte) (p : Fin 32) (c : Fin 64) : (s.setFlag b).pixel p c = s.pixel p c := rfl
@[simp] theorem pixel_advance (p : Fin 32) (c : Fin 64) : s.advance.pixel p c = s.pixel p c := rfl
@[simp] theorem pixel_report (o : CycleOutcome) (p : Fin 32) (c : Fin 64) : (s.report o).pixel p c = s.pixel p c := rfl
@[simp] theorem pixel_setDisplay (e : Display) (p : Fin 32) (c : Fin 64) : (s.setDisplay e).pixel p c = e[p.val][c.val] := rfl

@[simp] theorem pixel_clear (p : Fin 32) (c : Fin 64) : (s.setDisplay Display.clear).pixel p c = false := by
  simp [Display.clear]

/-! ### The registers written by reg-load -/

/-- `setRegsFrom` writes a window of registers and nothing else. -/
theorem setRegsFrom_frame (bs : List Byte) : ∀ (s : State) (r : Nat), ∃ v, s.setRegsFrom r bs = { s with v := v } := by
  induction bs with
  | nil => intro s r; exact ⟨s.v, rfl⟩
  | cons b bs ih =>
    intro s r
    simp only [setRegsFrom]
    split
    · rename_i h
      obtain ⟨v, hv⟩ := ih (s.setReg ⟨r, h⟩ b) (r + 1)
      exact ⟨v, hv⟩
    · exact ⟨s.v, rfl⟩

/-- The register `r + k` receives byte `k`; a register outside the window keeps its value. -/
theorem reg_setRegsFrom (bs : List Byte) : ∀ (s : State) (r : Nat) (q : Reg),
    (s.setRegsFrom r bs).reg q =
      if h : r ≤ q.val ∧ q.val - r < bs.length then bs[q.val - r] else s.reg q := by
  induction bs with
  | nil => intro s r q; simp [setRegsFrom]
  | cons b bs ih =>
    intro s r q
    simp only [setRegsFrom]
    split
    · rename_i hr
      rw [ih, reg_setReg]
      rcases Nat.lt_trichotomy q.val r with hq | hq | hq
      · have h1 : ¬ (r + 1 ≤ q.val ∧ q.val - (r + 1) < bs.length) := by omega
        have h2 : ¬ (r ≤ q.val ∧ q.val - r < (b :: bs).length) := by omega
        have h3 : q ≠ ⟨r, hr⟩ := by intro h; simp [h] at hq
        simp only [dif_neg h1, dif_neg h2, if_neg h3]
      · have h1 : ¬ (r + 1 ≤ q.val ∧ q.val - (r + 1) < bs.length) := by omega
        have h2 : r ≤ q.val ∧ q.val - r < (b :: bs).length := by simp; omega
        have h3 : q = ⟨r, hr⟩ := Fin.ext hq
        simp only [dif_neg h1, dif_pos h2, if_pos h3]
        simp [hq]
      · have h3 : q ≠ ⟨r, hr⟩ := by intro h; simp [h] at hq
        have hk : q.val - r = (q.val - (r + 1)) + 1 := by omega
        by_cases h1 : r + 1 ≤ q.val ∧ q.val - (r + 1) < bs.length
        · have h2 : r ≤ q.val ∧ q.val - r < (b :: bs).length := by simp; omega
          simp only [dif_pos h1, dif_pos h2]
          simp [hk]
        · have h2 : ¬ (r ≤ q.val ∧ q.val - r < (b :: bs).length) := by simp; omega
          simp only [dif_neg h1, dif_neg h2, if_neg h3]
    · rename_i hr
      have h2 : ¬ (r ≤ q.val ∧ q.val - r < (b :: bs).length) := by have : q.val < 16 := q.isLt; omega
      simp only [dif_neg h2]

/-- reg-dump takes `x + 1` bytes, byte `k` from `V[k]`. -/
@[simp] theorem length_regsUpTo (x : Reg) : (s.regsUpTo x).length = x.val + 1 := by
  simp [regsUpTo]

theorem getElem_regsUpTo (x : Reg) (k : Nat) (h : k < (s.regsUpTo x).length) :
    (s.regsUpTo x)[k] = s.reg ⟨k, by have := x.isLt; simp at h; omega⟩ := by
  simp [regsUpTo, reg]

end Sys2Proof.Machine.State
end

