-- ==== Sys2Proof/Laws/Decode.lean ====
section
/-! SUPPORT. The fields of encoded words, and the masks of the opcode table in terms of fields. -/
namespace Sys2Proof

/-! ### Fields and words in numbers (R72, R83) -/

theorem toNat_fieldClass (w : Word) : (fieldClass w).toNat = w.toNat / 4096 := by
  have := w.isLt
  rw [fieldClass, BitVec.extractLsb'_toNat, Nat.shiftRight_eq_div_pow]
  omega

theorem val_fieldX (w : Word) : (fieldX w).val = w.toNat / 256 % 16 := by
  show (w.extractLsb' 8 4).toNat = _
  rw [BitVec.extractLsb'_toNat, Nat.shiftRight_eq_div_pow]

theorem val_fieldY (w : Word) : (fieldY w).val = w.toNat / 16 % 16 := by
  show (w.extractLsb' 4 4).toNat = _
  rw [BitVec.extractLsb'_toNat, Nat.shiftRight_eq_div_pow]

theorem val_fieldN (w : Word) : (fieldN w).val = w.toNat % 16 := by
  show (w.extractLsb' 0 4).toNat = _
  rw [BitVec.extractLsb'_toNat, Nat.shiftRight_zero]

theorem toNat_fieldNn (w : Word) : (fieldNn w).toNat = w.toNat % 256 := by
  rw [fieldNn, BitVec.extractLsb'_toNat, Nat.shiftRight_zero]

theorem toNat_fieldNnn (w : Word) : (fieldNnn w).toNat = w.toNat % 4096 := by
  rw [fieldNnn, BitVec.extractLsb'_toNat, Nat.shiftRight_zero]

@[simp] theorem toNat_fieldBits (r : Fin 16) : (fieldBits r).toNat = r.val := by
  simp [fieldBits]

/-- Appending is shifting by a power of two and adding. -/
theorem toNat_append_eq {m n : Nat} (a : BitVec m) (b : BitVec n) : (a ++ b).toNat = a.toNat * 2 ^ n + b.toNat := by
  rw [BitVec.toNat_append, ← Nat.shiftLeft_add_eq_or_of_lt b.isLt, Nat.shiftLeft_eq]

theorem toNat_wordA (c : BitVec 4) (nnn : BitVec 12) : (wordA c nnn).toNat = c.toNat * 4096 + nnn.toNat :=
  toNat_append_eq c nnn

theorem toNat_wordXI (c : BitVec 4) (x : Reg) (nn : Byte) :
    (wordXI c x nn).toNat = c.toNat * 4096 + x.val * 256 + nn.toNat :=
  calc (wordXI c x nn).toNat = (c ++ fieldBits x).toNat * 2 ^ 8 + nn.toNat := toNat_append_eq _ _
    _ = (c.toNat * 2 ^ 4 + x.val) * 2 ^ 8 + nn.toNat := by rw [toNat_append_eq, toNat_fieldBits]
    _ = _ := by ring

theorem toNat_wordXYN (c : BitVec 4) (x y : Reg) (n : BitVec 4) :
    (wordXYN c x y n).toNat = c.toNat * 4096 + x.val * 256 + y.val * 16 + n.toNat :=
  calc (wordXYN c x y n).toNat = (c ++ fieldBits x ++ fieldBits y).toNat * 2 ^ 4 + n.toNat := toNat_append_eq _ _
    _ = ((c.toNat * 2 ^ 4 + x.val) * 2 ^ 4 + y.val) * 2 ^ 4 + n.toNat := by
      rw [toNat_append_eq, toNat_append_eq, toNat_fieldBits, toNat_fieldBits]
    _ = _ := by ring

/-! ### The fields of an encoded word -/

@[simp] theorem fieldClass_wordA (c : BitVec 4) (nnn : BitVec 12) : fieldClass (wordA c nnn) = c := by
  apply BitVec.eq_of_toNat_eq
  have := nnn.isLt
  rw [toNat_fieldClass, toNat_wordA]; omega

@[simp] theorem fieldNnn_wordA (c : BitVec 4) (nnn : BitVec 12) : fieldNnn (wordA c nnn) = nnn := by
  apply BitVec.eq_of_toNat_eq
  have := nnn.isLt
  rw [toNat_fieldNnn, toNat_wordA]; omega

@[simp] theorem fieldClass_wordXI (c : BitVec 4) (x : Reg) (nn : Byte) : fieldClass (wordXI c x nn) = c := by
  apply BitVec.eq_of_toNat_eq
  have := nn.isLt
  have := Config.reg_lt x
  rw [toNat_fieldClass, toNat_wordXI]; omega

@[simp] theorem fieldX_wordXI (c : BitVec 4) (x : Reg) (nn : Byte) : fieldX (wordXI c x nn) = x := by
  apply Fin.ext
  have := nn.isLt
  have := Config.reg_lt x
  rw [val_fieldX, toNat_wordXI]; omega

@[simp] theorem fieldNn_wordXI (c : BitVec 4) (x : Reg) (nn : Byte) : fieldNn (wordXI c x nn) = nn := by
  apply BitVec.eq_of_toNat_eq
  have := nn.isLt
  rw [toNat_fieldNn, toNat_wordXI]; omega

@[simp] theorem fieldClass_wordXYN (c : BitVec 4) (x y : Reg) (n : BitVec 4) : fieldClass (wordXYN c x y n) = c := by
  apply BitVec.eq_of_toNat_eq
  have := n.isLt
  have := Config.reg_lt x
  have := Config.reg_lt y
  rw [toNat_fieldClass, toNat_wordXYN]; omega

@[simp] theorem fieldX_wordXYN (c : BitVec 4) (x y : Reg) (n : BitVec 4) : fieldX (wordXYN c x y n) = x := by
  apply Fin.ext
  have := n.isLt
  have := Config.reg_lt x
  have := Config.reg_lt y
  rw [val_fieldX, toNat_wordXYN]; omega

@[simp] theorem fieldY_wordXYN (c : BitVec 4) (x y : Reg) (n : BitVec 4) : fieldY (wordXYN c x y n) = y := by
  apply Fin.ext
  have := n.isLt
  have := Config.reg_lt y
  rw [val_fieldY, toNat_wordXYN]; omega

@[simp] theorem val_fieldN_wordXYN (c : BitVec 4) (x y : Reg) (n : BitVec 4) :
    (fieldN (wordXYN c x y n)).val = n.toNat := by
  have := n.isLt
  rw [val_fieldN, toNat_wordXYN]; omega

/-! ### A word from its fields -/

/-- A word is its class and its low twelve bits. -/
theorem word_eq_wordA (w : Word) : wordA (fieldClass w) (fieldNnn w) = w := by
  apply BitVec.eq_of_toNat_eq
  rw [toNat_wordA, toNat_fieldClass, toNat_fieldNnn]; omega

/-- A word is its class, its `x` field and its low byte. -/
theorem word_eq_wordXI (w : Word) : wordXI (fieldClass w) (fieldX w) (fieldNn w) = w := by
  apply BitVec.eq_of_toNat_eq
  rw [toNat_wordXI, toNat_fieldClass, val_fieldX, toNat_fieldNn]; omega

/-- A word is its four nibbles. -/
theorem word_eq_wordXYN (w : Word) : wordXYN (fieldClass w) (fieldX w) (fieldY w) (fieldBits (fieldN w)) = w := by
  apply BitVec.eq_of_toNat_eq
  rw [toNat_wordXYN, toNat_fieldClass, val_fieldX, val_fieldY, toNat_fieldBits, val_fieldN]; omega

/-! ### Masks -/

/-- The mask `0xF000` keeps the class. -/
theorem and_F000 (w : Word) : w &&& 0xF000 = wordA (fieldClass w) 0 := by
  apply BitVec.eq_of_getLsbD_eq
  intro i hi
  simp only [BitVec.getLsbD_and, wordA, BitVec.getLsbD_append, fieldClass, BitVec.getLsbD_extractLsb']
  interval_cases i <;> simp

/-- The mask `0xF0FF` keeps the class and the low byte. -/
theorem and_F0FF (w : Word) : w &&& 0xF0FF = wordXI (fieldClass w) 0 (fieldNn w) := by
  apply BitVec.eq_of_getLsbD_eq
  intro i hi
  simp only [BitVec.getLsbD_and, wordXI, BitVec.getLsbD_append, fieldClass, fieldNn, BitVec.getLsbD_extractLsb', fieldBits]
  interval_cases i <;> simp

/-- The mask `0xF00F` keeps the class and the low nibble. -/
theorem and_F00F (w : Word) : w &&& 0xF00F = wordXYN (fieldClass w) 0 0 (w.extractLsb' 0 4) := by
  apply BitVec.eq_of_getLsbD_eq
  intro i hi
  simp only [BitVec.getLsbD_and, wordXYN, BitVec.getLsbD_append, fieldClass, BitVec.getLsbD_extractLsb', fieldBits]
  interval_cases i <;> simp

/-! ### Bytes of a word -/

@[simp] theorem wordOfBytes_high_low (w : Word) : wordOfBytes (highByte w) (lowByte w) = w := by
  apply BitVec.eq_of_getLsbD_eq
  intro i hi
  simp only [wordOfBytes, highByte, lowByte, BitVec.getLsbD_append, BitVec.getLsbD_extractLsb']
  by_cases h : i < 8
  · simp [h]
  · have h2 : i - 8 < 8 := by omega
    have h3 : 8 + (i - 8) = i := by omega
    simp [h, h2, h3]

theorem toNat_wordOfBytes (hi lo : Byte) : (wordOfBytes hi lo).toNat = hi.toNat * 256 + lo.toNat := by
  have h := lo.isLt
  rw [wordOfBytes, BitVec.toNat_append, ← Nat.shiftLeft_add_eq_or_of_lt h, Nat.shiftLeft_eq]

/-- Decoding two bytes is decoding their word. -/
@[simp] theorem decode_two (hi lo : Byte) (rest : List Byte) :
    decode (hi :: lo :: rest) = .ok (decodeWord (wordOfBytes hi lo), rest) := rfl

end Sys2Proof
end

