-- ==== Sys2Proof/Laws/Memory.lean ====
section
/-! SUPPORT. Memory: read after write, and every operation keeps the canonical form. -/
namespace Sys2Proof.Machine
namespace Memory

theorem risingFrom_mono {lo lo' : Nat} (h : lo' ≤ lo) : ∀ {m : Memory}, risingFrom lo m = true → risingFrom lo' m = true
  | [], _ => rfl
  | (a, _) :: _, hm => by
    simp only [risingFrom, Bool.and_eq_true, decide_eq_true_eq] at hm ⊢
    exact ⟨by omega, hm.2⟩

/-- In a rising list nothing at or below the bound is listed. -/
theorem lookup_eq_none_of_le {lo : Nat} : ∀ {m : Memory}, risingFrom lo m = true → ∀ {a : Nat}, a ≤ lo → lookup m a = none
  | [], _, _, _ => rfl
  | (b, _) :: m, hm, a, ha => by
    simp only [risingFrom, Bool.and_eq_true, decide_eq_true_eq] at hm
    have hb : b ≠ a := by omega
    simp only [lookup, if_neg hb]
    exact lookup_eq_none_of_le hm.2 (by omega)

theorem lookup_insert (m : Memory) (a b : Nat) (v : Byte) :
    lookup (insert m a v) b = if b = a then some v else lookup m b := by
  induction m with
  | nil => simp [insert, lookup, eq_comm]
  | cons c m ih =>
    obtain ⟨c, w⟩ := c
    simp only [insert]
    split
    · simp [lookup, eq_comm]
    · split
      · rename_i h; subst h
        by_cases hb : a = b <;> simp [lookup, hb, eq_comm]
      · rename_i h
        simp only [lookup, ih]
        by_cases hb : c = b
        · have : b ≠ a := by omega
          simp [hb, this]
        · simp [hb]

theorem lookup_erase {lo : Nat} : ∀ {m : Memory}, risingFrom lo m = true → ∀ (a b : Nat),
    lookup (erase m a) b = if b = a then none else lookup m b
  | [], _, a, b => by simp [erase, lookup]
  | (c, w) :: m, hm, a, b => by
    simp only [risingFrom, Bool.and_eq_true, decide_eq_true_eq] at hm
    simp only [erase]
    by_cases hc : c = a
    · subst hc
      simp only [if_true]
      by_cases hb : b = c
      · subst hb; simp [lookup_eq_none_of_le hm.2 (Nat.le_refl b)]
      · have : c ≠ b := by omega
        simp [lookup, hb, this]
    · simp only [if_neg hc, lookup, lookup_erase hm.2]
      by_cases hb : c = b
      · have : b ≠ a := by omega
        simp [hb, this]
      · simp [hb]

/-- A write to another address leaves a byte alone, whatever the list. -/
theorem lookup_erase_of_ne (m : Memory) {a b : Nat} (h : b ≠ a) : lookup (erase m a) b = lookup m b := by
  induction m with
  | nil => rfl
  | cons c m ih =>
    obtain ⟨c, w⟩ := c
    simp only [erase]
    split
    · rename_i hc
      have : c ≠ b := by omega
      simp [lookup, this]
    · simp only [lookup, ih]

theorem lookup_writeByte_of_ne (m : Memory) {a b : Nat} (v : Byte) (h : b ≠ a) :
    lookup (writeByte m a v) b = lookup m b := by
  unfold writeByte
  split
  · exact lookup_erase_of_ne m h
  · rw [lookup_insert, if_neg h]

theorem readByte_writeByte_of_ne (font : Vector Byte Config.hw.fontSize) (m : Memory) {a b : Nat} (v : Byte) (h : b ≠ a) :
    readByte font (writeByte m a v) b = readByte font m b := by
  simp only [readByte, lookup_writeByte_of_ne m v h]

/-- In the font region a memory reads as the font. -/
theorem readByte_of_lt (font : Vector Byte Config.hw.fontSize) (m : Memory) {a : Nat} (h : a < 80) :
    readByte font m a = font[a] := by
  have hf := (Config.inFont_iff a).mpr h
  simp only [readByte, unlistedByte, if_pos hf, dif_pos hf]
  rfl

/-- In the reserved region a memory reads as its entry, or as the free value of an unlisted cell. -/
theorem readByte_of_reserved (font : Vector Byte Config.hw.fontSize) (m : Memory) {a : Nat} (h : 80 ≤ a) (h2 : a < 0x200) :
    readByte font m a = (lookup m a).getD (Config.reservedByte a) := by
  have hf : ¬ Config.InFont a := by rw [Config.inFont_iff]; omega
  simp only [readByte, unlistedByte, if_neg hf, dif_neg hf, if_pos h2]
  cases lookup m a <;> rfl

/-- In the program region a memory reads as its entry, or as 0. -/
theorem readByte_of_program (font : Vector Byte Config.hw.fontSize) (m : Memory) {a : Nat} (h : 0x200 ≤ a) :
    readByte font m a = (lookup m a).getD 0 := by
  have hf : ¬ Config.InFont a := by rw [Config.inFont_iff]; omega
  have h2 : ¬ a < 0x200 := by omega
  simp only [readByte, unlistedByte, if_neg hf, dif_neg hf, if_neg h2]
  cases lookup m a <;> rfl

/-- Read after write at a writable address of a canonical memory. -/
theorem readByte_writeByte_self (font : Vector Byte Config.hw.fontSize) {m : Memory} (hm : wf m = true) {a : Nat} (v : Byte)
    (ha : 0x50 ≤ a) : readByte font (writeByte m a v) a = v := by
  simp only [wf, Bool.and_eq_true] at hm
  by_cases h : 0x200 ≤ a ∧ v = 0
  · rw [readByte_of_program font _ h.1, writeByte, if_pos h, lookup_erase hm.1, if_pos rfl, h.2]
    rfl
  · have hf : ¬ Config.InFont a := by rw [Config.inFont_iff]; omega
    simp only [readByte, writeByte, if_neg hf, if_neg h, lookup_insert, if_true]

/-! ### The canonical form -/

theorem risingFrom_insert {lo : Nat} {a : Nat} (v : Byte) (ha : lo < a) : ∀ {m : Memory}, risingFrom lo m = true →
    risingFrom lo (insert m a v) = true := by
  intro m
  induction m generalizing lo with
  | nil => intro _; simp [insert, risingFrom, ha]
  | cons c m ih =>
    obtain ⟨c, w⟩ := c
    intro hm
    simp only [risingFrom, Bool.and_eq_true, decide_eq_true_eq] at hm
    simp only [insert]
    split
    · rename_i h; simp [risingFrom, ha, h, hm.2]
    · split
      · rename_i h; subst h; simp [risingFrom, ha, hm.2]
      · simp only [risingFrom, Bool.and_eq_true, decide_eq_true_eq]
        exact ⟨hm.1, ih (by omega) hm.2⟩

theorem risingFrom_erase (a : Nat) {lo : Nat} {m : Memory} (hm : risingFrom lo m = true) :
    risingFrom lo (erase m a) = true := by
  induction m generalizing lo with
  | nil => rfl
  | cons c m ih =>
    obtain ⟨c, w⟩ := c
    simp only [risingFrom, Bool.and_eq_true, decide_eq_true_eq] at hm
    simp only [erase]
    split
    · exact risingFrom_mono (by omega) hm.2
    · simp only [risingFrom, Bool.and_eq_true, decide_eq_true_eq]
      exact ⟨hm.1, ih hm.2⟩

theorem all_insert {p : Host.Cell → Bool} (m : Memory) (a : Nat) (v : Byte) (hp : p (a, v) = true)
    (hm : m.all p = true) : (insert m a v).all p = true := by
  induction m with
  | nil => simp [insert, hp]
  | cons c m ih =>
    obtain ⟨c, w⟩ := c
    simp only [List.all_cons, Bool.and_eq_true] at hm
    simp only [insert]
    split
    · simp only [List.all_cons, Bool.and_eq_true]; exact ⟨hp, hm⟩
    · split
      · simp only [List.all_cons, Bool.and_eq_true]; exact ⟨hp, hm.2⟩
      · simp only [List.all_cons, Bool.and_eq_true]; exact ⟨hm.1, ih hm.2⟩

theorem all_erase {p : Host.Cell → Bool} (m : Memory) (a : Nat) (hm : m.all p = true) : (erase m a).all p = true := by
  induction m with
  | nil => rfl
  | cons c m ih =>
    obtain ⟨c, w⟩ := c
    simp only [List.all_cons, Bool.and_eq_true] at hm
    simp only [erase]
    split
    · exact hm.2
    · simp only [List.all_cons, Bool.and_eq_true]; exact ⟨hm.1, ih hm.2⟩

/-- A cell may be listed when its address is writable and it is not a 0 of the program region. -/
theorem cellOk_iff (a : Nat) (v : Byte) : cellOk (a, v) = true ↔ 0x50 ≤ a ∧ a ≤ 0xFFF ∧ ¬ (0x200 ≤ a ∧ v = 0) := by
  simp only [cellOk, Config.inFont_iff, Bool.and_eq_true, Bool.not_eq_true', decide_eq_true_eq, decide_eq_false_iff_not,
    Bool.and_eq_false_iff, beq_eq_false_iff_ne, not_and_or, and_assoc]
  refine and_congr (by omega) (and_congr ?_ Iff.rfl)
  show a < 4096 ↔ _
  omega

/-- A write to a writable address keeps the canonical form. -/
theorem wf_writeByte {m : Memory} (hm : wf m = true) {a : Nat} (v : Byte) (h1 : 0x50 ≤ a) (h2 : a ≤ 0xFFF) :
    wf (writeByte m a v) = true := by
  simp only [wf, Bool.and_eq_true] at hm ⊢
  unfold writeByte
  split
  · exact ⟨risingFrom_erase a hm.1, all_erase m a hm.2⟩
  · rename_i h
    exact ⟨risingFrom_insert v (by omega) hm.1, all_insert m a v ((cellOk_iff a v).mpr ⟨h1, h2, h⟩) hm.2⟩

theorem wf_writeRange (bs : List Byte) : ∀ {m : Memory}, wf m = true → ∀ {a : Nat}, 0x50 ≤ a →
    a + bs.length ≤ 0x1000 → wf (writeRange m a bs) = true := by
  induction bs with
  | nil => intro m hm a _ _; exact hm
  | cons b bs ih =>
    intro m hm a h1 h2
    simp only [List.length_cons] at h2
    exact ih (wf_writeByte hm b h1 (by omega)) (by omega) (by omega)

theorem risingFrom_filter (p : Host.Cell → Bool) {lo : Nat} {m : Memory} (hm : risingFrom lo m = true) :
    risingFrom lo (m.filter p) = true := by
  induction m generalizing lo with
  | nil => rfl
  | cons c m ih =>
    obtain ⟨c, w⟩ := c
    simp only [risingFrom, Bool.and_eq_true, decide_eq_true_eq] at hm
    rw [List.filter_cons]
    split
    · simp only [risingFrom, Bool.and_eq_true, decide_eq_true_eq]
      exact ⟨hm.1, ih hm.2⟩
    · exact risingFrom_mono (by omega) (ih hm.2)

theorem wf_clearProgram {m : Memory} (hm : wf m = true) : wf (clearProgram m) = true := by
  simp only [wf, Bool.and_eq_true] at hm ⊢
  refine ⟨risingFrom_filter _ hm.1, ?_⟩
  rw [List.all_eq_true] at hm ⊢
  intro c hc
  exact hm.2 c (List.mem_of_mem_filter hc)

theorem lookup_clearProgram (m : Memory) (a : Nat) :
    lookup (clearProgram m) a = if a < 0x200 then lookup m a else none := by
  induction m with
  | nil => simp [clearProgram, lookup]
  | cons c m ih =>
    obtain ⟨c, w⟩ := c
    simp only [clearProgram] at ih ⊢
    rw [List.filter_cons]
    by_cases hc : c < 0x200
    · simp only [hc, decide_true, if_true, lookup, ih]
      by_cases h : c = a
      · subst h; simp [hc]
      · simp [h]
    · simp only [hc, decide_false, lookup, ih, Bool.false_eq_true, if_false]
      by_cases h : c = a
      · subst h; simp [hc]
      · simp [h]

/-- Bytes outside a written range read as before. -/
theorem readByte_writeRange_of_outside (font : Vector Byte Config.hw.fontSize) (bs : List Byte) : ∀ (m : Memory) (a b : Nat),
    (b < a ∨ a + bs.length ≤ b) → readByte font (writeRange m a bs) b = readByte font m b := by
  induction bs with
  | nil => intro m a b _; rfl
  | cons c bs ih =>
    intro m a b h
    simp only [List.length_cons] at h
    rw [writeRange, ih _ _ _ (by omega), readByte_writeByte_of_ne font m c (by omega)]

/-- The bytes of a written range are the ones written. -/
theorem readByte_writeRange_inside (font : Vector Byte Config.hw.fontSize) (bs : List Byte) : ∀ {m : Memory}, wf m = true → ∀ {a : Nat},
    0x50 ≤ a → a + bs.length ≤ 0x1000 → ∀ (k : Nat) (hk : k < bs.length),
    readByte font (writeRange m a bs) (a + k) = bs[k] := by
  induction bs with
  | nil => intro m _ a _ _ k hk; simp at hk
  | cons c bs ih =>
    intro m hm a h1 h2 k hk
    simp only [List.length_cons] at h2 hk
    rw [writeRange]
    cases k with
    | zero =>
      rw [readByte_writeRange_of_outside font bs _ _ _ (by omega)]
      simpa using readByte_writeByte_self font hm c h1
    | succ k =>
      have := ih (wf_writeByte hm c h1 (by omega)) (a := a + 1) (by omega) (by omega) k (by omega)
      simpa [Nat.add_assoc, Nat.add_comm 1 k] using this

end Memory
end Sys2Proof.Machine
end

