-- ==== Sys2Proof/Laws/Ops.lean ====
section
/-! SUPPORT. What each shared operation can do, said once. -/
namespace Sys2Proof.Machine

/-! ### One byte of memory -/

theorem memRead_ok (s : State) {a : Nat} (h : a ≤ 0xFFF) : s.memRead a = .ok (s.byteAt a) :=
  if_neg (show ¬ 4096 ≤ a by omega)

theorem memRead_error (s : State) {a : Nat} (h : 0xFFF < a) : s.memRead a = .error { kind := .read, addr := a } :=
  if_pos (show 4096 ≤ a by omega)

theorem memWrite_ok (s : State) {a : Nat} (v : Byte) (h1 : 0x50 ≤ a) (h2 : a ≤ 0xFFF) :
    s.memWrite a v = .ok (s.setByte a v) := by
  have hf : ¬ Config.InFont a := by rw [Config.inFont_iff]; omega
  have hm : ¬ 4096 ≤ a := by omega
  simp only [State.memWrite, if_neg hm, if_neg hf]

theorem memWrite_error (s : State) {a : Nat} (v : Byte) (h : a < 0x50 ∨ 0xFFF < a) :
    s.memWrite a v = .error { kind := .write, addr := a } := by
  by_cases hm : 4096 ≤ a
  · simp only [State.memWrite, if_pos hm]
  · have hf : Config.InFont a := by rw [Config.inFont_iff]; omega
    simp only [State.memWrite, if_neg hm, if_pos hf]

/-! ### Ranges of memory -/

/-- A read of a range inside memory gives its bytes in order. -/
theorem memReadRange_ok (s : State) : ∀ (n a : Nat), (n = 0 ∨ a + n ≤ 0x1000) →
    s.memReadRange a n = .ok ((List.range n).map fun k => s.byteAt (a + k)) := by
  intro n
  induction n with
  | zero => intro a _; rfl
  | succ n ih =>
    intro a h
    have h1 : a ≤ 0xFFF := by omega
    have h2 : n = 0 ∨ a + 1 + n ≤ 0x1000 := by omega
    simp only [State.memReadRange, memRead_ok s h1, ih _ h2, List.range_succ_eq_map, List.map_cons,
      List.map_map, Function.comp_def, Nat.add_zero, Nat.succ_eq_add_one]
    simp only [Nat.add_assoc, Nat.add_comm 1]

/-- A read of a range that leaves memory is an error of its lowest bad address. -/
theorem memReadRange_error (s : State) : ∀ (n a : Nat), 0 < n → 0x1000 < a + n →
    s.memReadRange a n = .error { kind := .read, addr := max a 0x1000 } := by
  intro n
  induction n with
  | zero => intro a h; omega
  | succ n ih =>
    intro a _ h
    by_cases h1 : 0xFFF < a
    · have : max a 0x1000 = a := by omega
      simp only [State.memReadRange, memRead_error s h1, this]
    · have hm : max (a + 1) 0x1000 = max a 0x1000 := by omega
      simp only [State.memReadRange, memRead_ok s (Nat.not_lt.mp h1), ih (a + 1) (by omega) (by omega), hm]

/-- A write of a writable range is the writes of its bytes. -/
theorem memWriteRange_ok (bs : List Byte) : ∀ (s : State) (a : Nat), (bs = [] ∨ 0x50 ≤ a ∧ a + bs.length ≤ 0x1000) →
    s.memWriteRange a bs = .ok { s with mem := Memory.writeRange s.mem a bs } := by
  induction bs with
  | nil => intro s a _; rfl
  | cons b bs ih =>
    intro s a h
    simp only [List.length_cons, reduceCtorEq, false_or] at h
    have h1 : 0x50 ≤ a := by omega
    have h2 : a ≤ 0xFFF := by omega
    have h3 : bs = [] ∨ 0x50 ≤ a + 1 ∧ a + 1 + bs.length ≤ 0x1000 := Or.inr (by omega)
    simp only [State.memWriteRange, memWrite_ok s b h1 h2, ih _ _ h3]
    rfl

/-- A write of a range that meets the font region or leaves memory is an error of its lowest bad address. -/
theorem memWriteRange_error (bs : List Byte) : ∀ (s : State) (a : Nat), bs ≠ [] → (a < 0x50 ∨ 0x1000 < a + bs.length) →
    s.memWriteRange a bs = .error { kind := .write, addr := if a < 0x50 then a else max a 0x1000 } := by
  induction bs with
  | nil => intro s a h; exact absurd rfl h
  | cons b bs ih =>
    intro s a _ h
    simp only [List.length_cons] at h
    by_cases h0 : a < 0x50
    · simp only [State.memWriteRange, memWrite_error s b (Or.inl h0), if_pos h0]
    · by_cases h1 : 0xFFF < a
      · have : max a 0x1000 = a := by omega
        simp only [State.memWriteRange, memWrite_error s b (Or.inr h1), if_neg h0, this]
      · have h3 : ¬ a + 1 < 0x50 := by omega
        have hm : max (a + 1) 0x1000 = max a 0x1000 := by omega
        have hbs : bs ≠ [] := by rintro rfl; simp at h; omega
        simp only [State.memWriteRange, memWrite_ok s b (Nat.not_lt.mp h0) (Nat.not_lt.mp h1), if_neg h0,
          ih _ (a + 1) hbs (by omega), if_neg h3, hm]

/-- A range write that succeeds changes memory only, inside the range only, and keeps the canonical form. -/
theorem memWriteRange_cases {s s' : State} {a : Nat} {bs : List Byte} (h : s.memWriteRange a bs = .ok s') :
    (bs = [] ∨ 0x50 ≤ a ∧ a + bs.length ≤ 0x1000) ∧ s' = { s with mem := Memory.writeRange s.mem a bs } := by
  by_cases hg : bs = [] ∨ 0x50 ≤ a ∧ a + bs.length ≤ 0x1000
  · rw [memWriteRange_ok bs s a hg] at h
    exact ⟨hg, (Except.ok.inj h).symm⟩
  · have hbs : bs ≠ [] := fun he => hg (Or.inl he)
    rw [memWriteRange_error bs s a hbs (by by_contra hc; exact hg (Or.inr (by omega)))] at h
    cases h

/-- A range read that succeeds stays inside memory and gives its bytes in order. -/
theorem memReadRange_cases {s : State} {a n : Nat} {bs : List Byte} (h : s.memReadRange a n = .ok bs) :
    (n = 0 ∨ a + n ≤ 0x1000) ∧ bs = (List.range n).map fun k => s.byteAt (a + k) := by
  by_cases hg : n = 0 ∨ a + n ≤ 0x1000
  · rw [memReadRange_ok s n a hg] at h
    exact ⟨hg, (Except.ok.inj h).symm⟩
  · rw [memReadRange_error s n a (by omega) (by omega)] at h
    cases h

/-! ### The call stack -/

theorem push_of_lt (s : State) (w : Word) (h : s.sp.val < 16) :
    s.push w = some { s with stack := s.stack.set s.sp.val w, sp := ⟨s.sp.val + 1, Nat.succ_lt_succ h⟩ } := by
  simp [State.push, h]

theorem push_of_full (s : State) (w : Word) (h : s.sp.val = 16) : s.push w = none := by
  simp [State.push, h]

theorem pop_of_pos (s : State) (h : 0 < s.sp.val) :
    s.pop = some (s.stackEntry ⟨s.sp.val - 1, by omega⟩, { s with sp := ⟨s.sp.val - 1, by omega⟩ }) := by
  simp only [State.pop, dif_pos h]
  rfl

theorem pop_of_empty (s : State) (h : s.sp.val = 0) : s.pop = none := by
  simp [State.pop, h]

/-- A push changes the stack and its pointer only. -/
theorem push_cases {s s' : State} {w : Word} (h : s.push w = some s') :
    ∃ st sp, s' = { s with stack := st, sp := sp } := by
  unfold State.push at h
  split at h
  · exact ⟨_, _, (Option.some.inj h).symm⟩
  · cases h

/-- A pop changes the stack pointer only. -/
theorem pop_cases {s s' : State} {w : Word} (h : s.pop = some (w, s')) : ∃ sp, s' = { s with sp := sp } := by
  unfold State.pop at h
  split at h
  · simp only [Option.some.injEq, Prod.mk.injEq] at h
    exact ⟨_, h.2.symm⟩
  · cases h

/-! ### Operands and flags in numbers -/

theorem toNat_addressOperand (nnn : BitVec 12) : (addressOperand nnn).toNat = nnn.toNat := by
  have := nnn.isLt
  simp only [addressOperand, BitVec.truncate_eq_setWidth, BitVec.toNat_setWidth]
  omega

theorem toNat_byteOperand (b : Byte) : (byteOperand b).toNat = b.toNat := by
  have := b.isLt
  simp only [byteOperand, BitVec.truncate_eq_setWidth, BitVec.toNat_setWidth]
  omega

theorem toNat_offsetTarget (s : State) (nnn : BitVec 12) : (s.offsetTarget nnn).toNat = (s.reg 0).toNat + nnn.toNat := by
  have := nnn.isLt
  have := s.reg_toNat_lt 0
  rw [State.offsetTarget, BitVec.toNat_add, toNat_byteOperand, toNat_addressOperand]
  omega

theorem toNat_glyphAddress (b : Byte) : (glyphAddress b).toNat = b.toNat * 5 := by
  have hb := b.isLt
  have h5 : (BitVec.ofNat 16 Config.hw.glyphBytes).toNat = 5 := rfl
  rw [glyphAddress, BitVec.toNat_mul, toNat_byteOperand, h5]
  omega

theorem toNat_flagByte (b : Bool) : (flagByte b).toNat = if b then 1 else 0 := by cases b <;> rfl

/-! ### Keys -/

theorem keyOperand_of_lt (b : Byte) (h : b.toNat < 16) : keyOperand b = some ⟨b.toNat, h⟩ := dif_pos h

theorem keyOperand_of_ge (b : Byte) (h : 16 ≤ b.toNat) : keyOperand b = none :=
  dif_neg (show ¬ b.toNat < 16 by omega)

/-- No key is down exactly when `K` is 0. -/
theorem lowestKey_eq_none_iff (s : State) : s.lowestKey = none ↔ s.keys = 0 := by
  simp only [State.lowestKey, List.find?_eq_none, List.mem_range, Bool.not_eq_true]
  constructor
  · intro h; exact BitVec.eq_of_getLsbD_eq fun i hi => by simpa using h i hi
  · intro h k _; simp [h]

/-- The key captured is down, and no lower one is. -/
theorem lowestKey_eq_some_iff (s : State) (k : Nat) :
    s.lowestKey = some k ↔ k < 16 ∧ s.keys.getLsbD k = true ∧ ∀ j < k, s.keys.getLsbD j = false := by
  rw [State.lowestKey, List.find?_range_eq_some]
  constructor
  · rintro ⟨h1, h2, h3⟩
    exact ⟨by simpa using h2, h1, fun j hj => by simpa using h3 j hj⟩
  · rintro ⟨h1, h2, h3⟩
    exact ⟨h2, by simpa using h1, fun j hj => by simpa using h3 j hj⟩

/-! ### The end of an instruction and of a cycle -/

@[simp] theorem complete_eq (s : State) : complete s = .next (s.report .normal) := rfl

theorem raise_eq (o : CycleOutcome) (s : State) :
    raise o s = .next { s with tone := false, outcome := o, record := s.record.note o } := rfl

@[simp] theorem isFault_normal : CycleOutcome.normal.isFault = false := rfl
@[simp] theorem isFault_decodeFailure (pc w : Word) : (CycleOutcome.decodeFailure pc w).isFault = false := rfl
@[simp] theorem isFault_stackFault (k : StackFaultKind) (pc : Word) : (CycleOutcome.stackFault k pc).isFault = true := rfl
@[simp] theorem isFault_accessFault (k : AccessKind) (a pc : Word) : (CycleOutcome.accessFault k a pc).isFault = true := rfl
@[simp] theorem note_normal (r : FaultRecord) : r.note .normal = r := rfl

/-- Noting an outcome twice is noting it once. -/
@[simp] theorem note_note (r : FaultRecord) (o : CycleOutcome) : (r.note o).note o = r.note o := by cases o <;> rfl

@[simp] theorem endCycle_next (s : State) : endCycle (.next s) = .next (if s.outcome.isFault then s else s.tick) := rfl

theorem countDown_toNat (b : Byte) : (countDown b).toNat = b.toNat - 1 := by
  unfold countDown
  split
  · rename_i h; subst h; rfl
  · rename_i h
    have h0 : b.toNat ≠ 0 := fun h0 => h (BitVec.eq_of_toNat_eq h0)
    have hb := b.isLt
    have h1 : (1 : Byte).toNat = 1 := rfl
    show (b - 1 : Byte).toNat = _
    rw [BitVec.toNat_sub, h1]
    omega

end Sys2Proof.Machine
end

