-- ==== Sys2Proof/Laws/Sprite.lean ====
section
/-! SUPPORT. XOR of pixels onto a display: what one flip and a list of flips do to each pixel. -/
namespace Sys2Proof.Machine

/-- `D[r][c]` of a display on its own. -/
abbrev Display.px (d : Display) (r : Row) (c : Column) : Bool := d[r.val][c.val]

/-- A display is its pixels. -/
theorem Display.ext_px {d e : Display} (h : ∀ r c, d.px r c = e.px r c) : d = e := by
  apply Vector.ext
  intro r hr
  apply Vector.ext
  intro c hc
  exact h ⟨r, hr⟩ ⟨c, hc⟩

/-- One flip inverts its own pixel and leaves the others alone. -/
theorem px_flipPixel (p : Display × Bool) (t : Row × Column) (r : Row) (c : Column) :
    (flipPixel p t).1.px r c = if t = (r, c) then !p.1.px r c else p.1.px r c := by
  obtain ⟨tr, tc⟩ := t
  simp only [flipPixel, Display.px, Prod.mk.injEq]
  by_cases hr : tr = r
  · subst hr
    by_cases hc : tc = c
    · subst hc; simp
    · have : tc.val ≠ c.val := fun h => hc (Fin.ext h)
      simp [this, hc]
  · have : tr.val ≠ r.val := fun h => hr (Fin.ext h)
    simp [this, hr]

theorem hit_flipPixel (p : Display × Bool) (t : Row × Column) :
    (flipPixel p t).2 = (p.2 || p.1.px t.1 t.2) := rfl

/-- After a list of flips a pixel is inverted once for each time it is listed. -/
theorem px_foldl_flipPixel (ts : List (Row × Column)) : ∀ (p : Display × Bool) (r : Row) (c : Column),
    (ts.foldl flipPixel p).1.px r c = (p.1.px r c ^^ decide (ts.count (r, c) % 2 = 1)) := by
  induction ts with
  | nil => intro p r c; simp
  | cons t ts ih =>
    intro p r c
    rw [List.foldl_cons, ih, px_flipPixel, List.count_cons]
    by_cases h : t = (r, c)
    · have hb : (t == (r, c)) = true := by simp [h]
      simp only [if_pos h, hb, if_true]
      rcases Nat.mod_two_eq_zero_or_one (ts.count (r, c)) with h2 | h2
      · have h3 : (ts.count (r, c) + 1) % 2 = 1 := by omega
        simp [h2, h3]
      · have h3 : (ts.count (r, c) + 1) % 2 = 0 := by omega
        simp [h2, h3]
    · have hb : (t == (r, c)) = false := by simp [h]
      simp [if_neg h, hb]

/-- When no pixel is listed twice, a collision is seen exactly when a listed pixel was set before. -/
theorem hit_foldl_flipPixel (ts : List (Row × Column)) : ts.Nodup → ∀ (p : Display × Bool),
    (ts.foldl flipPixel p).2 = (p.2 || ts.any fun t => p.1.px t.1 t.2) := by
  induction ts with
  | nil => intro _ p; simp
  | cons t ts ih =>
    intro hn p
    rw [List.nodup_cons] at hn
    have hsame : (ts.any fun u => (flipPixel p t).1.px u.1 u.2) = ts.any fun u => p.1.px u.1 u.2 := by
      rw [Bool.eq_iff_iff, List.any_eq_true, List.any_eq_true]
      refine exists_congr fun u => and_congr_right fun hu => ?_
      have : ¬ t = (u.1, u.2) := by rintro rfl; exact hn.1 hu
      rw [px_flipPixel, if_neg this]
    rw [List.foldl_cons, ih hn.2, hsame, hit_flipPixel, List.any_cons, Bool.or_assoc]

/-- Flipping the same pixels again gives the display back. -/
theorem xorPixels_xorPixels (d : Display) (ts : List (Row × Column)) :
    (xorPixels (xorPixels d ts).1 ts).1 = d := by
  apply Display.ext_px
  intro r c
  simp only [xorPixels, px_foldl_flipPixel, Bool.xor_assoc, Bool.xor_self, Bool.xor_false]

/-! ### The pixels of a sprite -/

/-- The sprite column `px` (not reduced) lands on display column `c`. -/
theorem targetColumn_eq_some_iff (wrapX : Bool) (px : Nat) (c : Column) :
    targetColumn wrapX px = some c ↔ px = c.val ∨ (wrapX = true ∧ 64 ≤ px ∧ px % 64 = c.val) := by
  have := Config.column_lt c
  unfold targetColumn
  split
  · rename_i h
    have h : px < 64 := h
    rw [Option.some.injEq, Fin.ext_iff]
    exact ⟨Or.inl, fun h2 => h2.resolve_right (by omega)⟩
  · rename_i h
    have h : ¬ px < 64 := h
    split
    · rename_i hw
      rw [Option.some.injEq, Fin.ext_iff]
      exact ⟨fun h2 => Or.inr ⟨hw, by omega, h2⟩, fun h2 => (h2.resolve_left (by omega)).2.2⟩
    · rename_i hw
      simp only [reduceCtorEq, false_iff, not_or, not_and]
      exact ⟨by omega, fun h2 => absurd h2 hw⟩

theorem mem_rowTargets (wrapX : Bool) (vx : Nat) (py : Row) (b : Byte) (r : Row) (c : Column) :
    (r, c) ∈ rowTargets wrapX vx py b ↔
      r = py ∧ ∃ k < 8, b.getLsbD (7 - k) = true ∧ targetColumn wrapX (vx + k) = some c := by
  simp only [rowTargets, List.mem_filterMap, List.mem_range]
  constructor
  · rintro ⟨k, hk, h⟩
    split at h
    · rename_i hb
      simp only [Option.map_eq_some_iff, Prod.mk.injEq] at h
      obtain ⟨px, hpx, rfl, rfl⟩ := h
      exact ⟨rfl, k, hk, hb, hpx⟩
    · cases h
  · rintro ⟨rfl, k, hk, hb, hpx⟩
    exact ⟨k, hk, by simp [hb, hpx]⟩

theorem mem_spriteTargets (wrapX : Bool) (vx : Nat) (r : Row) (c : Column) : ∀ (bs : List Byte) (py : Nat),
    (r, c) ∈ spriteTargets wrapX vx py bs ↔
      ∃ (j : Nat) (hj : j < bs.length), py + j = r.val ∧
        ∃ k < 8, bs[j].getLsbD (7 - k) = true ∧ targetColumn wrapX (vx + k) = some c := by
  intro bs
  induction bs with
  | nil => intro py; simp [spriteTargets]
  | cons b bs ih =>
    intro py
    simp only [spriteTargets, List.mem_append, ih]
    constructor
    · rintro (h | ⟨j, hj, h1, h2⟩)
      · split at h
        · rw [mem_rowTargets] at h
          obtain ⟨rfl, h⟩ := h
          exact ⟨0, by simp, rfl, h⟩
        · simp at h
      · exact ⟨j + 1, by simpa using hj, by omega, by simpa using h2⟩
    · rintro ⟨j, hj, h1, h2⟩
      cases j with
      | zero =>
        left
        have hlt : py < 32 := by have := Config.row_lt r; omega
        rw [dif_pos hlt, mem_rowTargets]
        exact ⟨Fin.ext (by simpa using h1.symm), by simpa using h2⟩
      | succ j => exact Or.inr ⟨j, by simpa using hj, by omega, by simpa using h2⟩

/-- Two sprite columns land on one display column only if they are the same. -/
theorem targetColumn_inj {wrapX : Bool} {vx k k' : Nat} {c : Column} (hk : k < 8) (hk' : k' < 8)
    (h : targetColumn wrapX (vx + k) = some c) (h' : targetColumn wrapX (vx + k') = some c) : k = k' := by
  rw [targetColumn_eq_some_iff] at h h'
  have := Config.column_lt c
  omega

theorem nodup_rowTargets (wrapX : Bool) (vx : Nat) (py : Row) (b : Byte) : (rowTargets wrapX vx py b).Nodup := by
  unfold rowTargets
  rw [List.Nodup, List.pairwise_filterMap]
  refine List.Pairwise.imp_of_mem ?_ (List.nodup_range (n := 8))
  intro k k' hk hk' hne t ht t' ht' he
  subst he
  split at ht <;> split at ht' <;> simp only [Option.map_eq_some_iff, reduceCtorEq] at ht ht'
  obtain ⟨c, hc, rfl⟩ := ht
  obtain ⟨c', hc', h⟩ := ht'
  have : c' = c := (Prod.mk.inj h).2
  subst this
  exact hne (targetColumn_inj (List.mem_range.mp hk) (List.mem_range.mp hk') hc hc')

/-- No two bits of a sprite address one pixel (spec/43_display.md R151, corner case 8). -/
theorem nodup_spriteTargets (wrapX : Bool) (vx : Nat) : ∀ (bs : List Byte) (py : Nat),
    (spriteTargets wrapX vx py bs).Nodup := by
  intro bs
  induction bs with
  | nil => intro py; simp [spriteTargets]
  | cons b bs ih =>
    intro py
    simp only [spriteTargets]
    rw [List.nodup_append]
    refine ⟨?_, ih (py + 1), ?_⟩
    · split
      · exact nodup_rowTargets _ _ _ _
      · simp
    · rintro ⟨r, c⟩ ht ⟨r', c'⟩ hu he
      cases he
      rw [mem_spriteTargets] at hu
      obtain ⟨j, _, hj, _⟩ := hu
      split at ht
      · rw [mem_rowTargets] at ht
        obtain ⟨rfl, _⟩ := ht
        simp at hj; omega
      · simp at ht

end Sys2Proof.Machine
end

