-- ==== Sys2Proof/Laws/Exec.lean ====
section
/-! SUPPORT. What each branching meaning answers, in each of its cases, and what a cycle does around it. -/
namespace Sys2Proof.Machine

/-! ### Faults as next states -/

theorem raiseStack_eq (k : StackFaultKind) (s : State) :
    raiseStack k s = .next { s with tone := false, outcome := .stackFault k s.pc,
                                    record := s.record.note (.stackFault k s.pc) } := rfl

theorem raiseAccess_eq (e : AccessError) (s : State) :
    raiseAccess e s = .next { s with tone := false, outcome := .accessFault e.kind (BitVec.ofNat 16 e.addr) s.pc,
                                     record := s.record.note (.accessFault e.kind (BitVec.ofNat 16 e.addr) s.pc) } := rfl

/-! ### Control flow -/

theorem execCall_of_lt (nnn : BitVec 12) (s : State) (h : s.sp.val < 16) :
    execCall nnn s = complete ({ s with stack := s.stack.set s.sp.val s.pc,
                                        sp := ⟨s.sp.val + 1, Nat.succ_lt_succ h⟩ } |>.setPc (addressOperand nnn)) := by
  simp only [execCall, push_of_lt s s.pc h]

theorem execCall_of_full (nnn : BitVec 12) (s : State) (h : s.sp.val = 16) :
    execCall nnn s = raiseStack .overflow s := by
  simp only [execCall, push_of_full s s.pc h]

theorem execRet_of_pos (s : State) (h : 0 < s.sp.val) :
    execRet s = complete ({ s with sp := ⟨s.sp.val - 1, by omega⟩ } |>.setPc
      (s.stackEntry ⟨s.sp.val - 1, by omega⟩ + 2)) := by
  simp only [execRet, pop_of_pos s h]
  rfl

theorem execRet_of_empty (s : State) (h : s.sp.val = 0) : execRet s = raiseStack .underflow s := by
  simp only [execRet, pop_of_empty s h]

/-! ### Memory -/

theorem execBcd_of_writable (x : Reg) (s : State) (h1 : 0x50 ≤ s.i.toNat) (h2 : s.i.toNat + 3 ≤ 0x1000) :
    execBcd x s = complete ({ s with mem := Memory.writeRange s.mem s.i.toNat (bcdDigits (s.reg x)) }).advance := by
  simp only [execBcd, State.indexAddress, Nat.add_zero, memWriteRange_ok (bcdDigits (s.reg x)) s s.i.toNat (Or.inr ⟨h1, h2⟩)]

theorem execBcd_of_bad (x : Reg) (s : State) (h : s.i.toNat < 0x50 ∨ 0x1000 < s.i.toNat + 3) :
    execBcd x s = raiseAccess
      { kind := .write, addr := if s.i.toNat < 0x50 then s.i.toNat else max s.i.toNat 0x1000 } s := by
  simp only [execBcd, State.indexAddress, Nat.add_zero,
    memWriteRange_error (bcdDigits (s.reg x)) s s.i.toNat (by simp [bcdDigits]) h]

theorem regsUpTo_ne_nil (x : Reg) (s : State) : s.regsUpTo x ≠ [] := by
  intro h
  have := congrArg List.length h
  simp at this

theorem execRegDump_of_writable (x : Reg) (s : State) (h1 : 0x50 ≤ s.i.toNat) (h2 : s.i.toNat + x.val + 1 ≤ 0x1000) :
    execRegDump x s = complete ({ s with mem := Memory.writeRange s.mem s.i.toNat (s.regsUpTo x) }).advance := by
  have h : s.regsUpTo x = [] ∨ 0x50 ≤ s.i.toNat ∧ s.i.toNat + (s.regsUpTo x).length ≤ 0x1000 :=
    Or.inr ⟨h1, by rw [State.length_regsUpTo]; omega⟩
  simp only [execRegDump, State.indexAddress, Nat.add_zero, memWriteRange_ok _ s _ h]

theorem execRegDump_of_bad (x : Reg) (s : State) (h : s.i.toNat < 0x50 ∨ 0x1000 < s.i.toNat + x.val + 1) :
    execRegDump x s = raiseAccess
      { kind := .write, addr := if s.i.toNat < 0x50 then s.i.toNat else max s.i.toNat 0x1000 } s := by
  have h' : s.i.toNat < 0x50 ∨ 0x1000 < s.i.toNat + (s.regsUpTo x).length := by rw [State.length_regsUpTo]; omega
  simp only [execRegDump, State.indexAddress, Nat.add_zero, memWriteRange_error _ s _ (regsUpTo_ne_nil x s) h']

/-- The bytes a data read takes. -/
abbrev State.bytes (s : State) (a n : Nat) : List Byte := (List.range n).map fun k => s.byteAt (a + k)

theorem execRegLoad_of_readable (x : Reg) (s : State) (h : s.i.toNat + x.val + 1 ≤ 0x1000) :
    execRegLoad x s = complete (s.setRegsFrom 0 (s.bytes s.i.toNat (x.val + 1))).advance := by
  simp only [execRegLoad, State.indexAddress, Nat.add_zero, memReadRange_ok s (x.val + 1) s.i.toNat (Or.inr (by omega))]

theorem execRegLoad_of_bad (x : Reg) (s : State) (h : 0x1000 < s.i.toNat + x.val + 1) :
    execRegLoad x s = raiseAccess { kind := .read, addr := max s.i.toNat 0x1000 } s := by
  simp only [execRegLoad, State.indexAddress, Nat.add_zero,
    memReadRange_error s (x.val + 1) s.i.toNat (by omega) (by omega)]

/-! ### Display -/

/-- The pixels draw Vx,Vy,n acts on. -/
abbrev State.drawTargets (s : State) (x y : Reg) (n : Fin 16) : List (Fin 32 × Fin 64) :=
  spriteTargets s.cfg.wrapX (s.reg x).toNat (s.reg y).toNat (s.bytes s.i.toNat n.val)

theorem execDraw_of_readable (x y : Reg) (n : Fin 16) (s : State) (h : n.val = 0 ∨ s.i.toNat + n.val ≤ 0x1000) :
    execDraw x y n s = complete ((s.setFlag (collisionFlag (xorPixels s.d (s.drawTargets x y n)).2)).setDisplay
      (xorPixels s.d (s.drawTargets x y n)).1).advance := by
  simp only [execDraw, State.indexAddress, Nat.add_zero, memReadRange_ok s n.val s.i.toNat h]

theorem execDraw_of_bad (x y : Reg) (n : Fin 16) (s : State) (h0 : 0 < n.val) (h : 0x1000 < s.i.toNat + n.val) :
    execDraw x y n s = raiseAccess { kind := .read, addr := max s.i.toNat 0x1000 } s := by
  simp only [execDraw, State.indexAddress, Nat.add_zero, memReadRange_error s n.val s.i.toNat h0 h]

/-! ### Keys -/

theorem execSkipIfKeyPressed_of_lt (x : Reg) (s : State) (h : (s.reg x).toNat < 16) :
    execSkipIfKeyPressed x s = complete (s.skipWhen (s.keyDown ⟨(s.reg x).toNat, h⟩)) := by
  simp only [execSkipIfKeyPressed, keyOperand_of_lt _ h]

theorem execSkipIfKeyPressed_of_ge (x : Reg) (s : State) (h : 16 ≤ (s.reg x).toNat) :
    execSkipIfKeyPressed x s = raiseAccess { kind := .key, addr := (s.reg x).toNat } s := by
  simp only [execSkipIfKeyPressed, keyOperand_of_ge _ h]

theorem execSkipIfKeyNotPressed_of_lt (x : Reg) (s : State) (h : (s.reg x).toNat < 16) :
    execSkipIfKeyNotPressed x s = complete (s.skipWhen (!s.keyDown ⟨(s.reg x).toNat, h⟩)) := by
  simp only [execSkipIfKeyNotPressed, keyOperand_of_lt _ h]

theorem execSkipIfKeyNotPressed_of_ge (x : Reg) (s : State) (h : 16 ≤ (s.reg x).toNat) :
    execSkipIfKeyNotPressed x s = raiseAccess { kind := .key, addr := (s.reg x).toNat } s := by
  simp only [execSkipIfKeyNotPressed, keyOperand_of_ge _ h]

theorem execWaitForKey_of_none (x : Reg) (s : State) (h : s.lowestKey = none) : execWaitForKey x s = complete s := by
  simp only [execWaitForKey, h]

theorem execWaitForKey_of_some (x : Reg) (s : State) {k : Nat} (h : s.lowestKey = some k) :
    execWaitForKey x s = complete (s.setReg x (BitVec.ofNat 8 k)).advance := by
  simp only [execWaitForKey, h]

/-! ### All instructions at once -/

/-- Every instruction answers a next state. -/
theorem exec_total (i : Instr) (s : State) : ∃ t, exec i s = .next t := by
  cases i <;> simp only [exec] <;> try exact ⟨_, rfl⟩
  case ret => unfold execRet; split <;> exact ⟨_, rfl⟩
  case call => unfold execCall; split <;> exact ⟨_, rfl⟩
  case draw => unfold execDraw; split <;> exact ⟨_, rfl⟩
  case skipIfKeyPressed => unfold execSkipIfKeyPressed; split <;> exact ⟨_, rfl⟩
  case skipIfKeyNotPressed => unfold execSkipIfKeyNotPressed; split <;> exact ⟨_, rfl⟩
  case waitForKey => unfold execWaitForKey; split <;> exact ⟨_, rfl⟩
  case bcd => unfold execBcd; split <;> exact ⟨_, rfl⟩
  case regDump => unfold execRegDump; split <;> exact ⟨_, rfl⟩
  case regLoad => unfold execRegLoad; split <;> exact ⟨_, rfl⟩

/-- An instruction that ends in a fault changes the outputs and the record, and nothing else. -/
theorem exec_fault (i : Instr) (s t : State) (h : exec i s = .next t) (hf : t.outcome.isFault = true) :
    t = { s with tone := false, outcome := t.outcome, record := s.record.note t.outcome } := by
  have hA : ∀ e, raiseAccess e s = .next t →
      t = { s with tone := false, outcome := t.outcome, record := s.record.note t.outcome } := by
    intro e h; rw [raiseAccess_eq] at h; cases h; rfl
  have hS : ∀ k, raiseStack k s = .next t →
      t = { s with tone := false, outcome := t.outcome, record := s.record.note t.outcome } := by
    intro k h; rw [raiseStack_eq] at h; cases h; rfl
  have ok : ∀ u : State, complete u = .next t → False := by
    intro u h; rw [complete_eq] at h; cases h; cases hf
  cases i <;> simp only [exec] at h
  case ret => unfold execRet at h; split at h; exacts [(ok _ h).elim, hS _ h]
  case call => unfold execCall at h; split at h; exacts [(ok _ h).elim, hS _ h]
  case draw => unfold execDraw at h; split at h; exacts [(ok _ h).elim, hA _ h]
  case skipIfKeyPressed => unfold execSkipIfKeyPressed at h; split at h; exacts [(ok _ h).elim, hA _ h]
  case skipIfKeyNotPressed => unfold execSkipIfKeyNotPressed at h; split at h; exacts [(ok _ h).elim, hA _ h]
  case waitForKey => unfold execWaitForKey at h; split at h; exacts [(ok _ h).elim, (ok _ h).elim]
  case bcd => unfold execBcd at h; split at h; exacts [(ok _ h).elim, hA _ h]
  case regDump => unfold execRegDump at h; split at h; exacts [(ok _ h).elim, hA _ h]
  case regLoad => unfold execRegLoad at h; split at h; exacts [(ok _ h).elim, hA _ h]
  case unsupported => cases h; cases hf
  all_goals exact (ok _ h).elim

/-! ### The cycle -/

theorem fetch_of_le (s : State) (h : s.pc.toNat ≤ 0xFFE) :
    s.fetch = .ok (wordOfBytes (s.byteAt s.pc.toNat) (s.byteAt (s.pc.toNat + 1))) :=
  if_neg (show ¬ 4096 < s.pc.toNat + 2 by omega)

theorem fetch_of_gt (s : State) (h : 0xFFE < s.pc.toNat) : s.fetch = .error { kind := .fetch, addr := s.pc.toNat } :=
  if_pos (show 4096 < s.pc.toNat + 2 by omega)

/-- A cycle with `PC` in range. -/
theorem step_of_le (s : State) (h : s.pc.toNat ≤ 0xFFE) :
    step s = endCycle (exec (decodeWord (wordOfBytes (s.byteAt s.pc.toNat) (s.byteAt (s.pc.toNat + 1)))) s.beginCycle) := by
  have hf : s.beginCycle.fetch = .ok (wordOfBytes (s.byteAt s.pc.toNat) (s.byteAt (s.pc.toNat + 1))) :=
    fetch_of_le s.beginCycle h
  simp only [step, hf]

/-- A cycle with `PC` out of range. -/
theorem step_of_gt (s : State) (h : 0xFFE < s.pc.toNat) :
    step s = raiseAccess { kind := .fetch, addr := s.pc.toNat } s.beginCycle := by
  have hf : s.beginCycle.fetch = .error { kind := .fetch, addr := s.pc.toNat } := fetch_of_gt s.beginCycle h
  simp only [step, hf, raiseAccess_eq, endCycle_next, isFault_accessFault, if_true]

end Sys2Proof.Machine
end

