-- ==== Sys2Proof/Laws/PerInstr.lean ====
section
/-! SUPPORT. A law of every instruction, one lemma per constructor: the word of a well-formed instruction matches a
row of spec/30_encoding.md R75, unless the instruction is the action for unsupported words. -/
namespace Sys2Proof.Laws

/-- A word that passes the test of one row is supported. -/
theorem supportedWord_of_row {w : Word} (row : Word × Word) (hrow : row ∈ opcodeRows) (h : w &&& row.1 = row.2) :
    supportedWord w = true :=
  List.any_eq_true.mpr ⟨row, hrow, by simp [matchesRow, h]⟩

theorem mask_wordA {c : BitVec 4} {m : Word} (nnn : BitVec 12) (h : wordA c 0 = m) : wordA c nnn &&& 0xF000 = m := by
  rw [and_F000, fieldClass_wordA, h]

theorem mask_wordXI {c : BitVec 4} {m : Word} (x : Reg) (nn : Byte) (h : wordA c 0 = m) :
    wordXI c x nn &&& 0xF000 = m := by
  rw [and_F000, fieldClass_wordXI, h]

theorem mask_wordX {c : BitVec 4} {nn : Byte} {m : Word} (x : Reg) (h : wordXI c 0 nn = m) :
    wordXI c x nn &&& 0xF0FF = m := by
  rw [and_F0FF, fieldClass_wordXI, fieldNn_wordXI, h]

theorem mask_wordXYN {c : BitVec 4} {m : Word} (x y : Reg) (n : BitVec 4) (h : wordA c 0 = m) :
    wordXYN c x y n &&& 0xF000 = m := by
  rw [and_F000, fieldClass_wordXYN, h]

theorem mask_wordXY {c n : BitVec 4} {m : Word} (x y : Reg) (h : wordXYN c 0 0 n = m) :
    wordXYN c x y n &&& 0xF00F = m := by
  have hn : (wordXYN c x y n).extractLsb' 0 4 = n := BitVec.eq_of_toNat_eq (val_fieldN_wordXYN c x y n)
  rw [and_F00F, fieldClass_wordXYN, hn, h]

namespace WordMatchesRow

/-- The word of a well-formed instruction is supported exactly when the instruction is one of the 34. -/
def Statement (i : Instr) : Prop := i.wf = true → (supportedWord (encode i) = true ↔ ∀ w, i ≠ .unsupported w)

theorem of_row {i : Instr} (hi : ∀ w, i ≠ .unsupported w) (row : Word × Word) (hrow : row ∈ opcodeRows)
    (h : encode i &&& row.1 = row.2) : Statement i :=
  fun _ => ⟨fun _ => hi, fun _ => supportedWord_of_row row hrow h⟩

theorem clearScreen : Statement .clearScreen :=
  of_row (by simp) (0xFFFF, 0x00E0) (by decide) (by decide)
theorem ret : Statement .ret :=
  of_row (by simp) (0xFFFF, 0x00EE) (by decide) (by decide)
theorem jump (nnn : BitVec 12) : Statement (.jump nnn) :=
  of_row (by simp) (0xF000, 0x1000) (by decide) (mask_wordA nnn (by decide))
theorem call (nnn : BitVec 12) : Statement (.call nnn) :=
  of_row (by simp) (0xF000, 0x2000) (by decide) (mask_wordA nnn (by decide))
theorem skipIfEqual (x : Reg) (nn : Byte) : Statement (.skipIfEqual x nn) :=
  of_row (by simp) (0xF000, 0x3000) (by decide) (mask_wordXI x nn (by decide))
theorem skipIfNotEqual (x : Reg) (nn : Byte) : Statement (.skipIfNotEqual x nn) :=
  of_row (by simp) (0xF000, 0x4000) (by decide) (mask_wordXI x nn (by decide))
theorem skipIfRegEqual (x y : Reg) : Statement (.skipIfRegEqual x y) :=
  of_row (by simp) (0xF00F, 0x5000) (by decide) (mask_wordXY x y (by decide))
theorem load (x : Reg) (nn : Byte) : Statement (.load x nn) :=
  of_row (by simp) (0xF000, 0x6000) (by decide) (mask_wordXI x nn (by decide))
theorem addImm (x : Reg) (nn : Byte) : Statement (.addImm x nn) :=
  of_row (by simp) (0xF000, 0x7000) (by decide) (mask_wordXI x nn (by decide))
theorem assign (x y : Reg) : Statement (.assign x y) :=
  of_row (by simp) (0xF00F, 0x8000) (by decide) (mask_wordXY x y (by decide))
theorem orReg (x y : Reg) : Statement (.orReg x y) :=
  of_row (by simp) (0xF00F, 0x8001) (by decide) (mask_wordXY x y (by decide))
theorem andReg (x y : Reg) : Statement (.andReg x y) :=
  of_row (by simp) (0xF00F, 0x8002) (by decide) (mask_wordXY x y (by decide))
theorem xorReg (x y : Reg) : Statement (.xorReg x y) :=
  of_row (by simp) (0xF00F, 0x8003) (by decide) (mask_wordXY x y (by decide))
theorem addReg (x y : Reg) : Statement (.addReg x y) :=
  of_row (by simp) (0xF00F, 0x8004) (by decide) (mask_wordXY x y (by decide))
theorem sub (x y : Reg) : Statement (.sub x y) :=
  of_row (by simp) (0xF00F, 0x8005) (by decide) (mask_wordXY x y (by decide))
theorem shiftRight (x y : Reg) : Statement (.shiftRight x y) :=
  of_row (by simp) (0xF00F, 0x8006) (by decide) (mask_wordXY x y (by decide))
theorem subReverse (x y : Reg) : Statement (.subReverse x y) :=
  of_row (by simp) (0xF00F, 0x8007) (by decide) (mask_wordXY x y (by decide))
theorem shiftLeft (x y : Reg) : Statement (.shiftLeft x y) :=
  of_row (by simp) (0xF00F, 0x800E) (by decide) (mask_wordXY x y (by decide))
theorem skipIfRegNotEqual (x y : Reg) : Statement (.skipIfRegNotEqual x y) :=
  of_row (by simp) (0xF00F, 0x9000) (by decide) (mask_wordXY x y (by decide))
theorem loadIndex (nnn : BitVec 12) : Statement (.loadIndex nnn) :=
  of_row (by simp) (0xF000, 0xA000) (by decide) (mask_wordA nnn (by decide))
theorem jumpOffset (nnn : BitVec 12) : Statement (.jumpOffset nnn) :=
  of_row (by simp) (0xF000, 0xB000) (by decide) (mask_wordA nnn (by decide))
theorem random (x : Reg) (nn : Byte) : Statement (.random x nn) :=
  of_row (by simp) (0xF000, 0xC000) (by decide) (mask_wordXI x nn (by decide))
theorem draw (x y : Reg) (n : Fin 16) : Statement (.draw x y n) :=
  of_row (by simp) (0xF000, 0xD000) (by decide) (mask_wordXYN x y _ (by decide))
theorem skipIfKeyPressed (x : Reg) : Statement (.skipIfKeyPressed x) :=
  of_row (by simp) (0xF0FF, 0xE09E) (by decide) (mask_wordX x (by decide))
theorem skipIfKeyNotPressed (x : Reg) : Statement (.skipIfKeyNotPressed x) :=
  of_row (by simp) (0xF0FF, 0xE0A1) (by decide) (mask_wordX x (by decide))
theorem getDelay (x : Reg) : Statement (.getDelay x) :=
  of_row (by simp) (0xF0FF, 0xF007) (by decide) (mask_wordX x (by decide))
theorem waitForKey (x : Reg) : Statement (.waitForKey x) :=
  of_row (by simp) (0xF0FF, 0xF00A) (by decide) (mask_wordX x (by decide))
theorem setDelay (x : Reg) : Statement (.setDelay x) :=
  of_row (by simp) (0xF0FF, 0xF015) (by decide) (mask_wordX x (by decide))
theorem setSound (x : Reg) : Statement (.setSound x) :=
  of_row (by simp) (0xF0FF, 0xF018) (by decide) (mask_wordX x (by decide))
theorem addToIndex (x : Reg) : Statement (.addToIndex x) :=
  of_row (by simp) (0xF0FF, 0xF01E) (by decide) (mask_wordX x (by decide))
theorem fontCharAddress (x : Reg) : Statement (.fontCharAddress x) :=
  of_row (by simp) (0xF0FF, 0xF029) (by decide) (mask_wordX x (by decide))
theorem bcd (x : Reg) : Statement (.bcd x) :=
  of_row (by simp) (0xF0FF, 0xF033) (by decide) (mask_wordX x (by decide))
theorem regDump (x : Reg) : Statement (.regDump x) :=
  of_row (by simp) (0xF0FF, 0xF055) (by decide) (mask_wordX x (by decide))
theorem regLoad (x : Reg) : Statement (.regLoad x) :=
  of_row (by simp) (0xF0FF, 0xF065) (by decide) (mask_wordX x (by decide))
theorem unsupported (w : Word) : Statement (.unsupported w) := by
  intro h
  simp only [Instr.wf, Bool.not_eq_true'] at h
  simp [encode, h]

end WordMatchesRow
end Sys2Proof.Laws
end

