-- ==== Sys2Proof/Tests/Slice0.lean ====
section
/-! SUPPORT. Tests. The expected results are the spec's: encodings of spec/30_encoding.md R75 and R83 written out bit by
bit, and vectors of spec/95_test_vectors.md, named by their ids. The witnesses at the end show, for each statement of
Certificates/Slice0/Obligations.lean that has hypotheses, values that meet them together, at the edges of their ranges. -/
namespace Sys2Proof.Tests
open Machine

/-! ### Well-formedness -/

theorem test_wf_refuses_supported_word : (Instr.unsupported 0x6A05).wf = false := by decide
theorem test_wf_accepts_unsupported_word : (Instr.unsupported 0x5121).wf = true := by decide

/-! ### Decoding, bit by bit (R75) -/

theorem test_decode_clearScreen : decodeWord 0b0000000011100000 = .clearScreen := by decide
theorem test_decode_ret : decodeWord 0b0000000011101110 = .ret := by decide
theorem test_decode_jump : decodeWord 0b0001101010111100 = .jump 0xABC := by decide
theorem test_decode_call : decodeWord 0b0010001100000000 = .call 0x300 := by decide
theorem test_decode_skipIfEqual : decodeWord 0b0011101001000010 = .skipIfEqual 10 0x42 := by decide
theorem test_decode_skipIfNotEqual : decodeWord 0b0100101001000010 = .skipIfNotEqual 10 0x42 := by decide
theorem test_decode_skipIfRegEqual : decodeWord 0b0101000100100000 = .skipIfRegEqual 1 2 := by decide
theorem test_decode_load : decodeWord 0b0110101000000101 = .load 10 5 := by decide
theorem test_decode_addImm : decodeWord 0b0111001100000001 = .addImm 3 1 := by decide
theorem test_decode_assign : decodeWord 0b1000000100100000 = .assign 1 2 := by decide
theorem test_decode_orReg : decodeWord 0b1000000100100001 = .orReg 1 2 := by decide
theorem test_decode_andReg : decodeWord 0b1000000100100010 = .andReg 1 2 := by decide
theorem test_decode_xorReg : decodeWord 0b1000000100100011 = .xorReg 1 2 := by decide
theorem test_decode_addReg : decodeWord 0b1000000100100100 = .addReg 1 2 := by decide
theorem test_decode_sub : decodeWord 0b1000000100100101 = .sub 1 2 := by decide
theorem test_decode_shiftRight : decodeWord 0b1000000101110110 = .shiftRight 1 7 := by decide
theorem test_decode_subReverse : decodeWord 0b1000000100100111 = .subReverse 1 2 := by decide
theorem test_decode_shiftLeft : decodeWord 0b1000000101111110 = .shiftLeft 1 7 := by decide
theorem test_decode_skipIfRegNotEqual : decodeWord 0b1001000100100000 = .skipIfRegNotEqual 1 2 := by decide
theorem test_decode_loadIndex : decodeWord 0b1010001011110000 = .loadIndex 0x2F0 := by decide
theorem test_decode_jumpOffset : decodeWord 0b1011001100000000 = .jumpOffset 0x300 := by decide
theorem test_decode_random : decodeWord 0b1100001100001111 = .random 3 0x0F := by decide
theorem test_decode_draw : decodeWord 0b1101000100100101 = .draw 1 2 5 := by decide
theorem test_decode_skipIfKeyPressed : decodeWord 0b1110010110011110 = .skipIfKeyPressed 5 := by decide
theorem test_decode_skipIfKeyNotPressed : decodeWord 0b1110010110100001 = .skipIfKeyNotPressed 5 := by decide
theorem test_decode_getDelay : decodeWord 0b1111010000000111 = .getDelay 4 := by decide
theorem test_decode_waitForKey : decodeWord 0b1111001100001010 = .waitForKey 3 := by decide
theorem test_decode_setDelay : decodeWord 0b1111010000010101 = .setDelay 4 := by decide
theorem test_decode_setSound : decodeWord 0b1111010000011000 = .setSound 4 := by decide
theorem test_decode_addToIndex : decodeWord 0b1111001000011110 = .addToIndex 2 := by decide
theorem test_decode_fontCharAddress : decodeWord 0b1111001100101001 = .fontCharAddress 3 := by decide
theorem test_decode_bcd : decodeWord 0b1111010000110011 = .bcd 4 := by decide
theorem test_decode_regDump : decodeWord 0b1111001001010101 = .regDump 2 := by decide
theorem test_decode_regLoad : decodeWord 0b1111111101100101 = .regLoad 15 := by decide
/-- Vector X7, the unsupported words. -/
theorem test_decode_unsupported :
    [0x0000, 0x00E1, 0x00EF, 0x00FF, 0x0123, 0x5121, 0x512F, 0x8128, 0x812F, 0x9121, 0xE100, 0xE19F, 0xE1A0, 0xF100,
     0xF130, 0xF175, 0xF185, 0xF1FF, 0xFFFF].all (fun w => decodeWord w == .unsupported w) = true := by decide
theorem test_decode_truncated : decode [0x6A] = .error .truncated := rfl
theorem test_decode_bytes : decode [0x6A, 0x05, 0x12] = .ok (.load 10 5, [0x12]) := rfl
theorem test_decodeTableWord : decodeTableWord 16 0x6A05 = some (.load 10 5) := by decide

/-! ### One cycle -/

/-- Reset with the word `w` to run, after a change `f`. -/
def cycle (w : Nat) (f : State → State) : State :=
  match step ((f State.reset).withFetchWord 16 w) with
  | .next t => t
  | .fault r => nomatch r
  | .refused _ => State.reset

/-- Two registers set. -/
def withRegs (x : Reg) (a : Byte) (y : Reg) (b : Byte) (s : State) : State := (s.setReg y b).setReg x a

/-- A byte placed in memory and `I` pointing at it. -/
def withSprite (a : Nat) (b : Byte) (s : State) : State := (s.setByte a b).setIndex (BitVec.ofNat 16 a)

/-- What a vector of the arithmetic family lists: two registers, VF, `PC`. -/
def alu (t : State) : Byte × Byte × Byte × Word := (t.reg 1, t.reg 2, t.reg 15, t.pc)

/-- E1. -/
theorem test_load : (cycle 0x6A05 id).reg 10 = 5 ∧ (cycle 0x6A05 id).pc = 0x202 := by decide
/-- A8. -/
theorem test_addImm : (cycle 0x7301 (withRegs 3 0xFF 15 0)).reg 3 = 0 ∧
    (cycle 0x7301 (withRegs 3 0xFF 15 0)).reg 15 = 0 := by decide
/-- A10. -/
theorem test_addImm_vf : (cycle 0x7F01 (·.setReg 15 0xFF)).reg 15 = 0 := by decide
/-- A11. -/
theorem test_assign : alu (cycle 0x8120 (fun s => (withRegs 1 1 2 0xAB s).setReg 15 1)) = (0xAB, 0xAB, 1, 0x202) := by decide
/-- A12. -/
theorem test_orReg : alu (cycle 0x8121 (fun s => (withRegs 1 0xF0 2 0x0F s).setReg 15 1)) = (0xFF, 0x0F, 1, 0x202) := by decide
/-- A13. -/
theorem test_andReg : alu (cycle 0x8122 (fun s => (withRegs 1 0xFC 2 0x3F s).setReg 15 1)) = (0x3C, 0x3F, 1, 0x202) := by decide
/-- A14. -/
theorem test_xorReg : alu (cycle 0x8123 (fun s => (withRegs 1 0xFF 2 0x0F s).setReg 15 1)) = (0xF0, 0x0F, 1, 0x202) := by decide
/-- A17. -/
theorem test_addReg : alu (cycle 0x8124 (withRegs 1 0xC8 2 0x64)) = (0x2C, 0x64, 1, 0x202) := by decide
/-- A21: the flag is written last. -/
theorem test_addReg_vf : (cycle 0x8F14 (withRegs 15 0xFF 1 2)).reg 15 = 1 := by decide
/-- A23. -/
theorem test_sub : alu (cycle 0x8125 (withRegs 1 0x10 2 0x20)) = (0xF0, 0x20, 0, 0x202) := by decide
/-- A24: equal operands, no borrow. -/
theorem test_sub_equal : alu (cycle 0x8125 (withRegs 1 0x33 2 0x33)) = (0, 0x33, 1, 0x202) := by decide
/-- A33: `V7` is neither read nor written. -/
theorem test_shiftRight : alu (cycle 0x8176 (withRegs 1 0x05 7 0xAA)) = (2, 0, 1, 0x202) ∧
    (cycle 0x8176 (withRegs 1 0x05 7 0xAA)).reg 7 = 0xAA := by decide
/-- A34: the result is written last. -/
theorem test_shiftRight_vf : (cycle 0x8F06 (·.setReg 15 7)).reg 15 = 3 := by decide
/-- A29. -/
theorem test_subReverse : alu (cycle 0x8127 (withRegs 1 0x10 2 0x20)) = (0x10, 0x20, 1, 0x202) := by decide
/-- A32. -/
theorem test_subReverse_vf : (cycle 0x8F17 (withRegs 15 6 1 5)).reg 15 = 0 := by decide
/-- A35. -/
theorem test_shiftLeft : alu (cycle 0x817E (withRegs 1 0x81 7 0xAA)) = (2, 0, 1, 0x202) := by decide
/-- A36. -/
theorem test_shiftLeft_vf : (cycle 0x8F0E (·.setReg 15 0x81)).reg 15 = 2 := by decide
/-- A37: what the cycle does with the random byte it is given. -/
theorem test_random (h : Config.rnd 0 = 0xA7) : (cycle 0xC30F id).reg 3 = 0x07 :=
  show Config.rnd 0 &&& 0x0F = 0x07 by rw [h]; decide
/-- A38: a mask of 0 gives 0 whatever the random byte is. -/
theorem test_random_mask_zero : (cycle 0xC300 (·.setReg 3 0x77)).reg 3 = 0 :=
  show Config.rnd 0 &&& 0 = 0 from BitVec.and_zero

/-- F2. -/
theorem test_jump : (cycle 0x1200 id).pc = 0x200 ∧ (cycle 0x1ABC id).pc = 0xABC := by decide
/-- F4: the sixteenth nested call. -/
theorem test_call : (cycle 0x2300 ({ · with sp := 15 })).stackEntry 15 = 0x200 ∧
    (cycle 0x2300 ({ · with sp := 15 })).sp = 16 ∧ (cycle 0x2300 ({ · with sp := 15 })).pc = 0x300 := by decide
/-- F5: no tick, no effect. -/
theorem test_call_overflow : (cycle 0x2300 ({ · with sp := 16, dt := 3, st := 1 })).outcome = .stackFault .overflow 0x200 ∧
    (cycle 0x2300 ({ · with sp := 16, dt := 3, st := 1 })).dt = 3 ∧
    (cycle 0x2300 ({ · with sp := 16, dt := 3, st := 1 })).tone = false := by decide
/-- F6. -/
theorem test_ret : (cycle 0x00EE (fun s => { s with sp := 1, stack := s.stack.set 0 0x204 })).pc = 0x206 := by decide
/-- F7. -/
theorem test_ret_underflow : (cycle 0x00EE id).outcome = .stackFault .underflow 0x200 ∧
    (cycle 0x00EE id).pc = 0x200 := by decide
/-- F8, F9. -/
theorem test_skipIfEqual : (cycle 0x3A42 (·.setReg 10 0x42)).pc = 0x204 ∧ (cycle 0x3A42 (·.setReg 10 0x43)).pc = 0x202 := by decide
/-- F10, F11. -/
theorem test_skipIfNotEqual : (cycle 0x4A42 (·.setReg 10 0x42)).pc = 0x202 ∧ (cycle 0x4A42 (·.setReg 10 0x43)).pc = 0x204 := by decide
/-- F12, F13. -/
theorem test_skipIfRegEqual : (cycle 0x5120 (withRegs 1 7 2 7)).pc = 0x204 ∧ (cycle 0x5120 (withRegs 1 7 2 8)).pc = 0x202 := by decide
/-- F15: `I` is not written. -/
theorem test_skipIfRegNotEqual : (cycle 0x9120 (fun s => (withRegs 1 7 2 8 s).setIndex 0x333)).pc = 0x204 ∧
    (cycle 0x9120 (fun s => (withRegs 1 7 2 8 s).setIndex 0x333)).i = 0x333 := by decide
/-- F19. -/
theorem test_jumpOffset : (cycle 0xB300 (·.setReg 3 0x55)).pc = 0x300 := by decide
/-- F20. -/
theorem test_jumpOffset_high : (cycle 0xBFFF (·.setReg 0 0xFF)).pc = 0x10FE := by decide
/-- T5. -/
theorem test_unsupported : (cycle 0x0000 ({ · with dt := 1, st := 1 })).outcome = .decodeFailure 0x200 0 ∧
    (cycle 0x0000 ({ · with dt := 1, st := 1 })).pc = 0x202 ∧ (cycle 0x0000 ({ · with dt := 1, st := 1 })).dt = 0 ∧
    (cycle 0x0000 ({ · with dt := 1, st := 1 })).tone = true := by decide
/-- X2: the second byte would be at `0x1000`. -/
theorem test_fetch_fault : (match step { State.reset with pc := 0xFFF, df := true } with
    | .next t => (t.outcome, t.df) | _ => (.normal, true)) = (.accessFault .fetch 0xFFF 0xFFF, false) := by decide

/-- M1. -/
theorem test_loadIndex : (cycle 0xAFFF id).i = 0xFFF := by decide
/-- M6. -/
theorem test_addToIndex : (cycle 0xF21E (·.setIndex 0x1000)).i = 0x1000 ∧ (cycle 0xF21E (·.setIndex 0x1000)).reg 15 = 1 := by decide
/-- M7. -/
theorem test_addToIndex_wrap : (cycle 0xF21E (fun s => (s.setIndex 0xFFFF).setReg 2 1)).i = 0 ∧
    (cycle 0xF21E (fun s => (s.setIndex 0xFFFF).setReg 2 1)).reg 15 = 1 := by decide
/-- M9. -/
theorem test_fontCharAddress : (cycle 0xF329 (·.setReg 3 0xFF)).i = 0x4FB := by decide
/-- M13: the first writable address. -/
theorem test_bcd : [0x50, 0x51, 0x52].map (cycle 0xF433 (fun s => (s.setReg 4 0x7B).setIndex 0x50)).byteAt = [1, 2, 3] := by decide
/-- M17. -/
theorem test_bcd_fault : (cycle 0xF433 (fun s => (s.setReg 4 0x7B).setIndex 0xFFE)).outcome = .accessFault .write 0x1000 0x200 ∧
    (cycle 0xF433 (fun s => (s.setReg 4 0x7B).setIndex 0xFFE)).byteAt 0xFFE = 0 := by decide
/-- M19. -/
theorem test_regDump : [0x300, 0x301, 0x302, 0x303].map (cycle 0xF255 (fun s =>
    { s with v := s.v.set 0 1 |>.set 1 2 |>.set 2 3 |>.set 3 4, i := 0x300 })).byteAt = [1, 2, 3, 0] := by decide
/-- M22. -/
theorem test_regDump_fault : (cycle 0xF355 (·.setIndex 0x4E)).outcome = .accessFault .write 0x4E 0x200 := by decide
/-- M24: glyph F of the default font. -/
theorem test_regLoad : ((List.range 6).map fun k => (cycle 0xF465 (fun s => (s.setIndex 0x4B).setReg 5 0x77)).v[k]!) =
    [0xF0, 0x80, 0xF0, 0x80, 0x80, 0x77] := by decide
/-- M26. -/
theorem test_regLoad_fault : (cycle 0xFF65 (fun s => (s.setIndex 0xFF1).setReg 0 0x10)).outcome =
      .accessFault .read 0x1000 0x200 ∧ (cycle 0xFF65 (fun s => (s.setIndex 0xFF1).setReg 0 0x10)).reg 0 = 0x10 := by decide

/-- W20. -/
theorem test_clearScreen : (cycle 0x00E0 id).df = true ∧ (cycle 0x00E0 id).d = Display.clear := by decide
/-- W1: row 1 and row 2 of glyph 0 at column 2. -/
theorem test_draw : ((List.finRange 8).map ((cycle 0xD125 (withRegs 1 2 2 1)).pixel 1 ∘ Fin.castLE (by decide)),
      (List.finRange 8).map ((cycle 0xD125 (withRegs 1 2 2 1)).pixel 2 ∘ Fin.castLE (by decide))) =
    ([false, false, true, true, true, true, false, false], [false, false, true, false, false, true, false, false]) := by decide
/-- W4: columns continue from column 0 under `WRAP_X`. -/
theorem test_draw_wrap : ((fun t : State => (t.pixel 0 63, t.pixel 0 0, t.pixel 0 3, t.pixel 0 4))
    (cycle 0xD121 (fun s => { withSprite 0x300 0xFF (s.setReg 1 60) with cfg := { s.cfg with wrapX := true } }))) =
    (true, true, true, false) := by decide
/-- K1, K4. -/
theorem test_skipIfKeyPressed : (cycle 0xE59E (fun s => { s.setReg 5 10 with keys := 0x400 })).pc = 0x204 ∧
    (cycle 0xE59E (fun s => { s.setReg 5 0x10 with keys := 0xFFFF })).outcome = .accessFault .key 0x10 0x200 := by decide
/-- K5, K6. -/
theorem test_skipIfKeyNotPressed : (cycle 0xE5A1 (fun s => { s.setReg 5 10 with keys := 0x400 })).pc = 0x202 ∧
    (cycle 0xE5A1 (·.setReg 5 10)).pc = 0x204 := by decide
/-- K9. -/
theorem test_waitForKey : (cycle 0xF30A ({ · with keys := 0x88 })).reg 3 = 3 ∧ (cycle 0xF30A ({ · with keys := 0x88 })).pc = 0x202 := by decide
/-- K12. -/
theorem test_waitForKey_waiting : (cycle 0xF30A ({ · with dt := 5, st := 1 })).pc = 0x200 ∧
    (cycle 0xF30A ({ · with dt := 5, st := 1 })).dt = 4 ∧ (cycle 0xF30A ({ · with dt := 5, st := 1 })).tone = true := by decide
/-- K13. -/
theorem test_getDelay : (cycle 0xF407 ({ · with dt := 0x1E })).reg 4 = 0x1E ∧ (cycle 0xF407 ({ · with dt := 0x1E })).dt = 0x1D := by decide
/-- K15. -/
theorem test_setDelay : (cycle 0xF415 (·.setReg 4 3)).dt = 2 := by decide
/-- K19, K20. -/
theorem test_setSound : (cycle 0xF418 (·.setReg 4 1)).tone = true ∧ (cycle 0xF418 ({ · with st := 5 })).tone = false := by decide

/-! ### Host operations -/

/-- H1. -/
theorem test_hostReset : (hostReset ((State.reset.setByte 0x100 0x5A).setByte 0x200 0x12)).mem = [(0x100, 0x5A)] := by decide
/-- H3, at a size the kernel can count. -/
theorem test_loadProgram : ((loadProgram [0x12, 0x00] State.reset).2.mem, (loadProgram [0x12, 0x00] State.reset).1) =
    ([(0x200, 0x12)], .ok) := by decide

/-! ### Witnesses -/

/-- The state after reset with some memory listed and `PC` moved. -/
def loaded (m : Memory) (pc : Word) : State := { State.reset with mem := m, pc := pc }

theorem witness_DecodeOfEncode : (Instr.draw 15 15 15).wf = true ∧ (Instr.unsupported 0xFFFF).wf = true := by decide

theorem witness_OpcodeRowsAreDisjoint : (0xF00F, 0x8004) ∈ opcodeRows ∧ (0x8124#16 &&& 0xF00F = 0x8004) := by decide

/-- The last address a fetch may use. -/
theorem witness_FetchReadsBigEndianWord : (loaded [] 0xFFE).pc.toNat ≤ 0xFFE := by decide

theorem witness_StepRunsDecodedInstruction : (loaded [(0xFFE, 0x6A), (0xFFF, 5)] 0xFFE).pc.toNat ≤ 0xFFE ∧
    decode [(loaded [(0xFFE, 0x6A), (0xFFF, 5)] 0xFFE).byteAt 0xFFE, (loaded [(0xFFE, 0x6A), (0xFFF, 5)] 0xFFE).byteAt 0xFFF] =
      .ok (.load 10 5, []) := ⟨by decide, rfl⟩

/-- For FetchFaultsAboveLastWord and the last clause of TickCountsDownAndSoundsTone. -/
theorem witness_FetchFaultsAboveLastWord : 0xFFE < (loaded [] 0xFFF).pc.toNat := by decide

/-- For FaultingCycleHasNoEffect and FaultingCycleRepeats: a return on the empty stack. -/
theorem witness_FaultingCycle : ∃ t, step (loaded [(0x201, 0xEE)] 0x200) = .next t ∧ t.outcome.isFault = true :=
  ⟨_, rfl, rfl⟩

/-- OutcomesOfInstructions, where its ranges end: the last bytes in memory, the first beyond it, the last font byte. -/
theorem witness_OutcomesOfInstructions :
    (cycle 0xFF65 (·.setIndex 0xFF0)).outcome = .normal ∧
    (cycle 0xFF65 (·.setIndex 0xFF1)).outcome = .accessFault .read 0x1000 0x200 ∧
    (cycle 0xF055 (·.setIndex 0x50)).outcome = .normal ∧
    (cycle 0xF055 (·.setIndex 0x4F)).outcome = .accessFault .write 0x4F 0x200 ∧
    (cycle 0xF055 (·.setIndex 0xFFFF)).outcome = .accessFault .write 0xFFFF 0x200 ∧
    (cycle 0xD120 (·.setIndex 0xFFFF)).outcome = .normal := by decide

theorem witness_TickCountsDown : ∃ u, exec (decodeWord (wordOfBytes ((loaded [] 0xFFE).byteAt 0xFFE)
    ((loaded [] 0xFFE).byteAt 0xFFF))) (loaded [] 0xFFE).beginCycle = .next u ∧ u.outcome.isFault = false := ⟨_, rfl, rfl⟩

/-- A return on the empty stack, at the last address a fetch may use. -/
theorem witness_TickIsLeftOut : decodeWord (wordOfBytes ((loaded [(0xFFF, 0xEE)] 0xFFE).byteAt 0xFFE)
      ((loaded [(0xFFF, 0xEE)] 0xFFE).byteAt 0xFFF)) = .ret ∧
    ∃ u, exec .ret (loaded [(0xFFF, 0xEE)] 0xFFE).beginCycle = .next u ∧ u.outcome.isFault = true :=
  ⟨by decide, _, rfl, rfl⟩

theorem witness_UnsupportedWordIsReported : (loaded [] 0xFFE).pc.toNat ≤ 0xFFE ∧
    (∀ row ∈ opcodeRows, (0 : Word) &&& row.1 ≠ row.2) ∧
    wordOfBytes ((loaded [] 0xFFE).byteAt 0xFFE) ((loaded [] 0xFFE).byteAt 0xFFF) = 0 :=
  ⟨by decide, by simp [opcodeRows], by decide⟩

/-- The frames: an instruction that completes, and one that faults. -/
theorem witness_frames : (∃ t, exec (.regDump 15) (State.reset.setIndex 0xFF0) = .next t ∧ t.outcome = .normal) ∧
    (∃ t, exec (.regDump 15) (State.reset.setIndex 0xFF1) = .next t ∧ t.outcome.isFault = true) ∧
    writesIndex (.regDump 15) = false ∧ writesStack (.regDump 15) = false ∧ writesDisplay (.regDump 15) = false ∧
    15 ∉ writtenRegs (.regDump 15) := ⟨⟨_, rfl, rfl⟩, ⟨_, rfl, rfl⟩, rfl, rfl, rfl, by decide⟩

theorem witness_RegisterFrame : 3 ∉ writtenRegs (.addReg 1 2) ∧ 15 ∈ writtenRegs (.addReg 1 2) ∧
    5 ∈ writtenRegs (.regLoad 5) ∧ 6 ∉ writtenRegs (.regLoad 5) := by decide

theorem witness_StackFrame : (∃ t, exec (.call 0x300) { State.reset with sp := 15 } = .next t ∧ t.sp = 16) ∧
    ∀ nnn : BitVec 12, Instr.call 0x300 = .call nnn → (14 : Fin 16).val ≠ ({ State.reset with sp := 15 } : State).sp.val :=
  ⟨⟨_, rfl, rfl⟩, fun _ _ => by decide⟩

/-- MemoryFrame: the bytes on either side of a dump of sixteen registers at the start of the writable memory. -/
theorem witness_MemoryFrame :
    ¬ ((State.reset.setIndex 0x50).indexAddress 0 ≤ 0x4F ∧ 0x4F < (State.reset.setIndex 0x50).indexAddress (storeLength (.regDump 15))) ∧
    ¬ ((State.reset.setIndex 0x50).indexAddress 0 ≤ 0x60 ∧ 0x60 < (State.reset.setIndex 0x50).indexAddress (storeLength (.regDump 15))) ∧
    ((State.reset.setIndex 0x50).indexAddress 0 ≤ 0x5F ∧ 0x5F < (State.reset.setIndex 0x50).indexAddress (storeLength (.regDump 15))) := by
  decide

theorem witness_CallPushesItsAddress : ({ State.reset with sp := 15 } : State).sp.val < 16 ∧
    ({ State.reset with sp := 16 } : State).sp.val = 16 := by decide

theorem witness_ReturnPopsAndAdvances : ({ State.reset with sp := 16 } : State).sp.val = (15 : Fin 16).val + 1 ∧
    ({ State.reset with sp := 1 } : State).sp.val = (0 : Fin 16).val + 1 ∧ State.reset.sp.val = 0 := by decide

theorem witness_ReturnResumesAfterItsCall : ∃ t, exec (.call 0x300) { State.reset with sp := 15 } = .next t ∧
    ({ State.reset with sp := t.sp, stack := t.stack } : State).sp = t.sp ∧
    ({ State.reset with sp := t.sp, stack := t.stack } : State).stack = t.stack := ⟨_, rfl, rfl, rfl⟩

theorem witness_BcdStoresDecimalDigits : Memory.wf (State.reset.setIndex 0x50).mem = true ∧
    0x50 ≤ (State.reset.setIndex 0x50).i.toNat ∧ (State.reset.setIndex 0x50).i.toNat + 2 ≤ 0xFFF ∧
    0x50 ≤ (State.reset.setIndex 0xFFD).i.toNat ∧ (State.reset.setIndex 0xFFD).i.toNat + 2 ≤ 0xFFF := by decide

/-- For RegDumpStoresRegisters, RegLoadLoadsRegisters and DumpThenLoadRestoresRegisters: the last place for all sixteen. -/
theorem witness_RegDumpAndRegLoad : Memory.wf (State.reset.setIndex 0xFF0).mem = true ∧
    0x50 ≤ (State.reset.setIndex 0xFF0).i.toNat ∧ (State.reset.setIndex 0xFF0).i.toNat + (15 : Reg).val ≤ 0xFFF := by decide

theorem witness_MemoryPrimitives : (match State.reset.memRead 0x1000 with | .error e => e.addr == 0x1000 | .ok _ => false) = true ∧
    (match State.reset.memWrite 0x4F 1 with | .error e => e.addr == 0x4F | .ok _ => false) = true ∧
    (match State.reset.memWrite 0x50 1 with | .ok t => t.mem == [(0x50, 1)] | .error _ => false) = true ∧
    (match State.reset.memWrite 0xFFF 1 with | .ok t => t.mem == [(0xFFF, 1)] | .error _ => false) = true := by decide

/-- The rows of a sprite end at the last byte of memory, or there are none. -/
theorem witness_DrawFlipsCoveredPixels :
    (State.reset.setIndex 0xFF1).i.toNat + (15 : Fin 16).val ≤ 0x1000 ∧ (0 : Fin 16).val = 0 := by decide

/-- Glyph 0 drawn at the origin covers the origin and does not cover the last pixel; with every pixel set it collides. -/
theorem witness_spriteCovers : State.reset.spriteCovers 0 0 5 0 0 ∧ ¬ State.reset.spriteCovers 0 0 5 31 63 ∧
    (∃ r c, ({ State.reset with d := Vector.replicate 32 (Vector.replicate 64 true) } : State).spriteCovers 0 0 5 r c ∧
      ({ State.reset with d := Vector.replicate 32 (Vector.replicate 64 true) } : State).pixel r c = true) := by
  have h0 : (State.reset.reg 0).toNat = 0 := by decide
  refine ⟨⟨0, by decide, by decide, 0, by decide, by decide, Or.inl (by decide)⟩, ?_,
    0, 0, ⟨0, by decide, by decide, 0, by decide, by decide, Or.inl (by decide)⟩, by decide⟩
  rintro ⟨j, hj, h, -⟩
  rw [h0] at h
  have : (5 : Fin 16).val = 5 := rfl
  have : (31 : Row).val = 31 := rfl
  omega

theorem witness_DrawTwiceRestoresDisplay : ∃ t u, exec (.draw 0 1 5) State.reset = .next t ∧ t.outcome = .normal ∧
    t.cfg.wrapX = State.reset.cfg.wrapX ∧ t.reg 0 = State.reset.reg 0 ∧ t.reg 1 = State.reset.reg 1 ∧
    (∀ k < (5 : Fin 16).val, t.byteAt (t.i.toNat + k) = State.reset.byteAt (State.reset.i.toNat + k)) ∧
    exec (.draw 0 1 5) t = .next u ∧ u.outcome = .normal :=
  ⟨_, _, rfl, rfl, rfl, rfl, rfl, fun _ _ => rfl, rfl, rfl⟩

theorem witness_KeySkipsTestTheirKey : ((State.reset.setReg 5 15).reg 5).toNat = (15 : Fin 16).val := by decide

theorem witness_WaitForKey : (∀ k, State.reset.keyDown k = false) ∧
    ({ State.reset with keys := 0x8000 } : State).keyDown 15 = true ∧
    (∀ j < (15 : Fin 16), ({ State.reset with keys := 0x8000 } : State).keyDown j = false) := by decide

theorem witness_KeysReachOnlyKeyInstructions : readsKeys (.getDelay 0) = false ∧ readsKeys .ret = false := by decide

theorem witness_SoundTimerAndDrawFlag : ∃ t t', exec (.setSound 1) State.reset = .next t ∧
    exec (.setSound 1) { State.reset with st := 9, df := true } = .next t' := ⟨_, _, rfl, rfl⟩

/-- For StepKeepsInvariant: a state with a tone, and the cycle after it. -/
theorem witness_StepKeepsInvariant : ({ State.reset with tone := true } : State).Inv ∧
    ∃ t, step { State.reset with tone := true } = .next t :=
  ⟨⟨rfl, fun _ => rfl, fun h => Bool.noConfusion h, fun h => Bool.noConfusion h, rfl⟩, _, rfl⟩

theorem witness_ReachableStatesMeetInvariant : Reachable (boot Config.default [0x12, 0x00] State.reset).2 :=
  .boot _ _ _ rfl

theorem witness_FontIsNeverMutated : ∃ t, handle .cycle (loaded [(0x200, 0x12)] 0x200) = .next t := ⟨_, rfl⟩

/-- Both clauses, at the largest image that fits and the smallest that does not. -/
theorem witness_LoadProgramCopiesOrRefuses : Memory.wf State.reset.mem = true ∧
    (List.replicate 3584 (0xFF : Byte)).length ≤ 3584 ∧ 3584 < (List.replicate 3585 (0xFF : Byte)).length := by
  simp only [List.length_replicate]; decide

theorem witness_KeysStayAsTheHostSetThem : ∃ t u, handle (.setKeys 0x8001) State.reset = .next t ∧
    handle .cycle t = .next u := ⟨_, _, rfl, rfl⟩

theorem witness_HaltedProgramStaysHalted : (loaded [(0x200, 0x12)] 0x200).haltedAt 0x200 :=
  ⟨by decide, by decide, by decide⟩

end Sys2Proof.Tests
end

section
/-! PROOF. The phases of a cycle around `exec` (spec/00_scope.md R9). -/
namespace Sys2Proof.Machine

/-- Settles O7: the bytes at `PC` decode to the instruction of the fetched word (`decode_two`), a cycle whose fetch is
in range is `endCycle` of its `exec` (`step_of_le`), and each answer of `exec` picks its branch of `endCycle`. -/
theorem stepRunsDecodedInstruction : Obligations.StepRunsDecodedInstruction := by
  intro s i hpc hdecode
  have hword : decodeWord (wordOfBytes (s.byteAt s.pc.toNat) (s.byteAt (s.pc.toNat + 1))) = i := by
    simpa only [decode_two, Except.ok.injEq, Prod.mk.injEq, and_true] using hdecode
  rw [step_of_le s hpc, hword, State.beginCycle]
  cases exec i { s with df := false, outcome := .normal, tone := false } with
  | next t => exact endCycle_next t
  | fault r => rfl
  | refused r => rfl

end Sys2Proof.Machine
end

section
/-! SUPPORT. What an instruction can do to the state, said once: the columns of writes of the access matrix
(spec/10_state.md R37). -/
namespace Sys2Proof.Machine

namespace State

theorem sameRegsBut_refl (s : State) (rs : List Reg) : s.sameRegsBut s rs := fun _ _ => rfl

/-- A write to a listed register keeps the others. -/
theorem sameRegsBut_setReg {s t : State} {rs : List Reg} {r : Reg} (b : Byte) (hr : r ∈ rs) (h : t.sameRegsBut s rs) :
    (t.setReg r b).sameRegsBut s rs := by
  intro q hq
  have hne : q ≠ r := fun he => hq (he ▸ hr)
  rw [reg_setReg_of_ne t b hne, h q hq]

/-- reg-load of `x + 1` bytes keeps the registers above `V[x]`. -/
theorem sameRegsBut_setRegsFrom_zero (s : State) (x : Reg) {bs : List Byte} (hbs : bs.length = x.val + 1) :
    (s.setRegsFrom 0 bs).sameRegsBut s (writtenRegs (.regLoad x)) := by
  intro q hq
  have hlt : x < q := by simpa [writtenRegs] using hq
  have hout : ¬ (0 ≤ q.val ∧ q.val - 0 < bs.length) := by rw [Fin.lt_def] at hlt; omega
  rw [reg_setRegsFrom, dif_neg hout]

end State

/-- The ways an instruction ends, by what it writes: a fault writes only outputs, a completed instruction (or an
unsupported word) the fields of its row of the access matrix, and `PC`. -/
inductive Effect (s : State) : Instr → State → Prop where
  | fault (i : Instr) (o : CycleOutcome) (ho : o.isFault = true) :
    Effect s i { s with tone := false, outcome := o, record := s.record.note o }
  | pcOnly (i : Instr) (pc : Word) (o : CycleOutcome) : Effect s i ((s.setPc pc).report o)
  | call (nnn : BitVec 12) (pc w : Word) (h : s.sp.val < 16) :
    Effect s (.call nnn) (({ s with stack := s.stack.set s.sp.val w,
                                    sp := ⟨s.sp.val + 1, Nat.succ_lt_succ h⟩ }).setPc pc |>.report .normal)
  | ret (pc : Word) (sp : Fin 17) : Effect s .ret (({ s with sp := sp }).setPc pc |>.report .normal)
  | registers (i : Instr) (v : Vector Byte 16) (hv : ({ s with v := v }).sameRegsBut s (writtenRegs i)) :
    Effect s i (({ s with v := v }).advance.report .normal)
  | random (x : Reg) (nn b : Byte) : Effect s (.random x nn) ((s.setReg x b).drawRandom.advance.report .normal)
  | index (i : Instr) (hi : writesIndex i = true) (w : Word) (v : Vector Byte 16)
    (hv : ({ s with v := v }).sameRegsBut s (writtenRegs i)) :
    Effect s i (({ s with v := v }).setIndex w |>.advance.report .normal)
  | store (i : Instr) (bs : List Byte) (hlen : bs.length = storeLength i) :
    Effect s i (({ s with mem := Memory.writeRange s.mem s.i.toNat bs }).advance.report .normal)
  | display (i : Instr) (hi : writesDisplay i = true) (d : Display) (v : Vector Byte 16)
    (hv : ({ s with v := v }).sameRegsBut s (writtenRegs i)) :
    Effect s i (({ s with v := v }).setDisplay d |>.advance.report .normal)
  | setDelay (x : Reg) (b : Byte) : Effect s (.setDelay x) ((s.setDelay b).advance.report .normal)
  | setSound (x : Reg) (b : Byte) : Effect s (.setSound x) ((s.setSound b).advance.report .normal)

namespace Effect

variable {s t : State}

theorem of_raiseAccess (i : Instr) {e : AccessError} (h : raiseAccess e s = .next t) : Effect s i t := by
  cases h
  exact .fault i _ rfl

/-- Completing after a write of one listed register. -/
theorem writeReg {i : Instr} {x : Reg} (b : Byte) (hx : x ∈ writtenRegs i) :
    Effect s i ((s.setReg x b).advance.report .normal) :=
  .registers i _ (State.sameRegsBut_setReg b hx (s.sameRegsBut_refl _))

/-- Completing after a write of two listed registers, in order. -/
theorem writeTwoRegs {i : Instr} {x y : Reg} (a b : Byte) (hx : x ∈ writtenRegs i) (hy : y ∈ writtenRegs i) :
    Effect s i (((s.setReg x a).setReg y b).advance.report .normal) :=
  .registers i _ (State.sameRegsBut_setReg b hy (State.sameRegsBut_setReg a hx (s.sameRegsBut_refl _)))

theorem of_execRet (h : execRet s = .next t) : Effect s .ret t := by
  by_cases hsp : s.sp.val = 0
  · rw [execRet_of_empty s hsp] at h
    cases h
    exact .fault _ _ rfl
  · rw [execRet_of_pos s (Nat.pos_of_ne_zero hsp)] at h
    cases h
    exact .ret _ _

theorem of_execCall {nnn : BitVec 12} (h : execCall nnn s = .next t) : Effect s (.call nnn) t := by
  by_cases hsp : s.sp.val < 16
  · rw [execCall_of_lt nnn s hsp] at h
    cases h
    exact .call nnn _ _ hsp
  · rw [execCall_of_full nnn s (by have := s.sp_le; omega)] at h
    cases h
    exact .fault _ _ rfl

theorem of_execDraw {x y : Reg} {n : Fin 16} (h : execDraw x y n s = .next t) : Effect s (.draw x y n) t := by
  by_cases hr : n.val = 0 ∨ s.i.toNat + n.val ≤ 0x1000
  · rw [execDraw_of_readable x y n s hr] at h
    cases h
    exact .display _ rfl _ _ (State.sameRegsBut_setReg _ (by simp [writtenRegs]) (s.sameRegsBut_refl _))
  · rw [execDraw_of_bad x y n s (by omega) (by omega)] at h
    exact of_raiseAccess _ h

theorem of_execSkipIfKeyPressed {x : Reg} (h : execSkipIfKeyPressed x s = .next t) :
    Effect s (.skipIfKeyPressed x) t := by
  rcases Nat.lt_or_ge (s.reg x).toNat 16 with hx | hx
  · rw [execSkipIfKeyPressed_of_lt x s hx] at h
    cases h
    exact .pcOnly _ _ _
  · rw [execSkipIfKeyPressed_of_ge x s hx] at h
    exact of_raiseAccess _ h

theorem of_execSkipIfKeyNotPressed {x : Reg} (h : execSkipIfKeyNotPressed x s = .next t) :
    Effect s (.skipIfKeyNotPressed x) t := by
  rcases Nat.lt_or_ge (s.reg x).toNat 16 with hx | hx
  · rw [execSkipIfKeyNotPressed_of_lt x s hx] at h
    cases h
    exact .pcOnly _ _ _
  · rw [execSkipIfKeyNotPressed_of_ge x s hx] at h
    exact of_raiseAccess _ h

theorem of_execWaitForKey {x : Reg} (h : execWaitForKey x s = .next t) : Effect s (.waitForKey x) t := by
  cases hk : s.lowestKey with
  | none =>
    rw [execWaitForKey_of_none x s hk] at h
    cases h
    exact .pcOnly _ s.pc _
  | some k =>
    rw [execWaitForKey_of_some x s hk] at h
    cases h
    exact writeReg _ (by simp [writtenRegs])

theorem of_execBcd {x : Reg} (h : execBcd x s = .next t) : Effect s (.bcd x) t := by
  by_cases hw : 0x50 ≤ s.i.toNat ∧ s.i.toNat + 3 ≤ 0x1000
  · rw [execBcd_of_writable x s hw.1 hw.2] at h
    cases h
    exact .store _ _ rfl
  · rw [execBcd_of_bad x s (by omega)] at h
    exact of_raiseAccess _ h

theorem of_execRegDump {x : Reg} (h : execRegDump x s = .next t) : Effect s (.regDump x) t := by
  by_cases hw : 0x50 ≤ s.i.toNat ∧ s.i.toNat + x.val + 1 ≤ 0x1000
  · rw [execRegDump_of_writable x s hw.1 hw.2] at h
    cases h
    exact .store _ _ (s.length_regsUpTo x)
  · rw [execRegDump_of_bad x s (by omega)] at h
    exact of_raiseAccess _ h

theorem of_execRegLoad {x : Reg} (h : execRegLoad x s = .next t) : Effect s (.regLoad x) t := by
  by_cases hr : s.i.toNat + x.val + 1 ≤ 0x1000
  · rw [execRegLoad_of_readable x s hr] at h
    cases h
    have hregs := s.sameRegsBut_setRegsFrom_zero x (bs := s.bytes s.i.toNat (x.val + 1)) (by simp)
    obtain ⟨v, hv⟩ := State.setRegsFrom_frame (s.bytes s.i.toNat (x.val + 1)) s 0
    rw [hv] at hregs ⊢
    exact .registers _ v hregs
  · rw [execRegLoad_of_bad x s (by omega)] at h
    exact of_raiseAccess _ h

end Effect

/-- Every instruction that answers a next state has one of the effects. -/
theorem exec_effect {i : Instr} {s t : State} (h : exec i s = .next t) : Effect s i t := by
  cases i
  case ret => exact .of_execRet h
  case call => exact .of_execCall h
  case draw => exact .of_execDraw h
  case skipIfKeyPressed => exact .of_execSkipIfKeyPressed h
  case skipIfKeyNotPressed => exact .of_execSkipIfKeyNotPressed h
  case waitForKey => exact .of_execWaitForKey h
  case bcd => exact .of_execBcd h
  case regDump => exact .of_execRegDump h
  case regLoad => exact .of_execRegLoad h
  all_goals cases h
  case clearScreen => exact .display _ rfl _ s.v (s.sameRegsBut_refl _)
  case random => exact .random _ _ _
  case setDelay => exact .setDelay _ _
  case setSound => exact .setSound _ _
  case loadIndex => exact .index _ rfl _ s.v (s.sameRegsBut_refl _)
  case fontCharAddress => exact .index _ rfl _ s.v (s.sameRegsBut_refl _)
  case addToIndex =>
    exact .index _ rfl _ _ (State.sameRegsBut_setReg _ (by simp [writtenRegs]) (s.sameRegsBut_refl _))
  case jump | skipIfEqual | skipIfNotEqual | skipIfRegEqual | skipIfRegNotEqual | jumpOffset | unsupported =>
    exact .pcOnly _ _ _
  case load | addImm | assign | orReg | andReg | xorReg | getDelay => exact .writeReg _ (by simp [writtenRegs])
  case addReg | sub | shiftRight | subReverse | shiftLeft =>
    exact .writeTwoRegs _ _ (by simp [writtenRegs]) (by simp [writtenRegs])

end Sys2Proof.Machine
end

section
/-! PROOF. The frames (spec/10_state.md R37): what each effect leaves unchanged, case by case. -/
namespace Sys2Proof.Machine

/-- An instruction writes no register outside its row of the access matrix. -/
theorem exec_sameRegsBut {i : Instr} {s t : State} (h : exec i s = .next t) : t.sameRegsBut s (writtenRegs i) := by
  cases exec_effect h with
  | registers _ _ hv | index _ _ _ _ hv | display _ _ _ _ hv => exact hv
  | random x nn b => exact State.sameRegsBut_setReg b (by simp [writtenRegs]) (s.sameRegsBut_refl _)
  | _ => exact s.sameRegsBut_refl _

/-- Settles O15: each effect writes listed registers only (`exec_sameRegsBut`), and a fault changes nothing but outputs
and record (`exec_fault`). -/
theorem registerFrame : Obligations.RegisterFrame := by
  intro i s t h
  refine ⟨exec_sameRegsBut h, fun hf => ?_⟩
  rw [exec_fault i s t h hf]
  exact s.sameRegsBut_refl _

/-- Settles O16: the one effect that writes `I` is that of the three instructions `writesIndex` lists. -/
theorem indexFrame : Obligations.IndexFrame := by
  intro i s t h hno
  cases exec_effect h with
  | index _ hi => rw [hi] at hno; cases hno
  | _ => rfl

/-- Settles O17: only the effects of call and return touch `SP` or the stack, and the entry call sets is the one `SP`
indexes. -/
theorem stackFrame : Obligations.StackFrame := by
  intro i s t h
  cases exec_effect h with
  | call nnn pc w hsp =>
    exact ⟨fun hno => Bool.noConfusion hno, fun k hk => Vector.getElem_set_ne hsp k.isLt (hk nnn rfl).symm⟩
  | ret => exact ⟨fun hno => Bool.noConfusion hno, fun _ _ => rfl⟩
  | _ => exact ⟨fun _ => rfl, fun _ _ => rfl⟩

/-- Settles O18: the one effect that stores writes `storeLength` bytes from `I` up, and a byte outside a written range
reads as before (`Memory.readByte_writeRange_of_outside`). -/
theorem memoryFrame : Obligations.MemoryFrame := by
  intro i s t h a ha
  cases exec_effect h with
  | store _ bs hlen =>
    have hout : a < s.i.toNat ∨ s.i.toNat + bs.length ≤ a := by
      simp only [State.indexAddress, ← hlen] at ha
      omega
    exact Memory.readByte_writeRange_of_outside s.cfg.font bs s.mem s.i.toNat a hout
  | _ => rfl

/-- Settles O19: the one effect that writes the display and `DF` is that of the instructions `writesDisplay` lists. -/
theorem displayFrame : Obligations.DisplayFrame := by
  intro i s t h hno
  cases exec_effect h with
  | display _ hi => rw [hi] at hno; cases hno
  | _ => exact ⟨fun _ _ => rfl, rfl⟩

/-- Settles O20: each timer is written by one effect, that of its own instruction. -/
theorem timerFrame : Obligations.TimerFrame := by
  intro i s t h
  cases exec_effect h with
  | setDelay x => exact ⟨fun hno => absurd rfl (hno x), fun _ => rfl⟩
  | setSound x => exact ⟨fun _ => rfl, fun hno => absurd rfl (hno x)⟩
  | _ => exact ⟨fun _ => rfl, fun _ => rfl⟩

/-- No instruction writes the key state. -/
theorem exec_keys {i : Instr} {s t : State} (h : exec i s = .next t) : t.keys = s.keys := by
  cases exec_effect h <;> rfl

/-- No instruction writes the configuration. -/
theorem exec_cfg {i : Instr} {s t : State} (h : exec i s = .next t) : t.cfg = s.cfg := by
  cases exec_effect h <;> rfl

/-- Only random moves the random input on. -/
theorem exec_rndCount {i : Instr} {s t : State} (h : exec i s = .next t) (hi : ∀ x nn, i ≠ .random x nn) :
    t.rndCount = s.rndCount := by
  cases exec_effect h with
  | random x nn => exact absurd rfl (hi x nn)
  | _ => rfl

/-- Settles O51: reset lists no memory, is silent, and reports and records nothing. -/
theorem invariantAtReset : Obligations.InvariantAtReset where
  memory := rfl
  tone _ := rfl
  drawFlag _ := rfl
  quiet h := nomatch h
  recorded := rfl

end Sys2Proof.Machine
end

section
/-! SUPPORT. Running an instruction from two states that differ in a part of the state it does not read. -/
namespace Sys2Proof.Machine

/-- New contents for one of the three parts of the state that few instructions read or none: the key state, the index of
the random input, and `ST` with `DF`. -/
inductive Overwrite where
  | keys (k : BitVec 16)
  | rndCount (n : Nat)
  | soundAndDrawFlag (b : Byte) (f : Bool)

/-- Put the new contents in place. -/
def State.overwrite (s : State) : Overwrite → State
  | .keys k => { s with keys := k }
  | .rndCount n => { s with rndCount := n }
  | .soundAndDrawFlag b f => { s with st := b, df := f }

/-- The instruction does not read the part (spec/10_state.md R37, columns of reads). -/
def Overwrite.unreadBy (i : Instr) : Overwrite → Prop
  | .keys _ => readsKeys i = false
  | .rndCount _ => ∀ x nn, i ≠ .random x nn
  | .soundAndDrawFlag _ _ => True

/-- An instruction that reads the keys leaves only the other parts unread. -/
theorem Overwrite.ne_keys {i : Instr} {o : Overwrite} (ho : o.unreadBy i) (hi : readsKeys i = true) (k : BitVec 16) :
    o ≠ .keys k := by
  rintro rfl
  exact Bool.noConfusion (hi.symm.trans ho)

namespace State

variable (s : State) (o : Overwrite)

/-! ### Every other part reads the same -/

@[simp] theorem overwrite_sp : (s.overwrite o).sp = s.sp := by cases o <;> rfl
@[simp] theorem overwrite_stack : (s.overwrite o).stack = s.stack := by cases o <;> rfl
@[simp] theorem overwrite_pc : (s.overwrite o).pc = s.pc := by cases o <;> rfl
@[simp] theorem reg_overwrite (r : Reg) : (s.overwrite o).reg r = s.reg r := by cases o <;> rfl
@[simp] theorem regsUpTo_overwrite (x : Reg) : (s.overwrite o).regsUpTo x = s.regsUpTo x := by cases o <;> rfl
@[simp] theorem indexAddress_overwrite (k : Nat) : (s.overwrite o).indexAddress k = s.indexAddress k := by cases o <;> rfl
@[simp] theorem memRead_overwrite (a : Nat) : (s.overwrite o).memRead a = s.memRead a := by cases o <;> rfl

@[simp] theorem memReadRange_overwrite (n : Nat) : ∀ a, (s.overwrite o).memReadRange a n = s.memReadRange a n := by
  induction n with
  | zero => intro a; rfl
  | succ n ih => intro a; simp only [memReadRange, memRead_overwrite, ih]

theorem keyDown_overwrite {o : Overwrite} (ho : ∀ k, o ≠ .keys k) (k : Key) :
    (s.overwrite o).keyDown k = s.keyDown k := by
  cases o with
  | keys k => exact absurd rfl (ho k)
  | _ => rfl

theorem lowestKey_overwrite {o : Overwrite} (ho : ∀ k, o ≠ .keys k) : (s.overwrite o).lowestKey = s.lowestKey := by
  cases o with
  | keys k => exact absurd rfl (ho k)
  | _ => rfl

/-! ### The operations commute with it -/

theorem push_overwrite (w : Word) : (s.overwrite o).push w = (s.push w).map (·.overwrite o) := by
  simp only [push, overwrite_sp, overwrite_stack]
  split <;> cases o <;> rfl

theorem pop_overwrite : (s.overwrite o).pop = s.pop.map fun p => (p.1, p.2.overwrite o) := by
  simp only [pop, overwrite_sp, overwrite_stack]
  split <;> cases o <;> rfl

theorem memWriteRange_overwrite (a : Nat) (bs : List Byte) :
    (s.overwrite o).memWriteRange a bs = (s.memWriteRange a bs).map (·.overwrite o) := by
  by_cases h : bs = [] ∨ 0x50 ≤ a ∧ a + bs.length ≤ 0x1000
  · rw [memWriteRange_ok bs _ a h, memWriteRange_ok bs s a h]
    cases o <;> rfl
  · obtain ⟨hne, hbad⟩ := not_or.mp h
    rw [memWriteRange_error bs _ a hne (by omega), memWriteRange_error bs s a hne (by omega)]
    rfl

theorem setReg_overwrite (r : Reg) (b : Byte) : (s.overwrite o).setReg r b = (s.setReg r b).overwrite o := by
  cases o <;> rfl

theorem setRegsFrom_overwrite (bs : List Byte) : ∀ (s : State) (r : Nat),
    (s.overwrite o).setRegsFrom r bs = (s.setRegsFrom r bs).overwrite o := by
  induction bs with
  | nil => intro s r; rfl
  | cons b bs ih =>
    intro s r
    simp only [setRegsFrom, setReg_overwrite, ih]
    split <;> rfl

/-- Putting in what stands there changes nothing. -/
theorem overwrite_keys_self {s : State} {k : BitVec 16} (h : s.keys = k) : s.overwrite (.keys k) = s := by
  subst h; rfl

theorem overwrite_rndCount_self {s : State} {n : Nat} (h : s.rndCount = n) : s.overwrite (.rndCount n) = s := by
  subst h; rfl

end State

/-- An instruction does the same, but in the overwritten part, whatever that part holds, if it does not read it. -/
theorem exec_overwrite (i : Instr) (s : State) (o : Overwrite) (ho : o.unreadBy i) :
    mapNext (·.overwrite o) (exec i (s.overwrite o)) = mapNext (·.overwrite o) (exec i s) := by
  cases i <;> simp only [exec]
  case ret =>
    simp only [execRet, State.pop_overwrite]
    cases s.pop <;> cases o <;> rfl
  case call nnn =>
    simp only [execCall, State.overwrite_pc, State.push_overwrite]
    cases s.push s.pc <;> cases o <;> rfl
  case draw x y n =>
    simp only [execDraw, State.indexAddress_overwrite, State.memReadRange_overwrite]
    cases s.memReadRange (s.indexAddress 0) n.val <;> cases o <;> rfl
  case bcd x =>
    simp only [execBcd, State.indexAddress_overwrite, State.reg_overwrite, State.memWriteRange_overwrite]
    cases s.memWriteRange (s.indexAddress 0) (bcdDigits (s.reg x)) <;> cases o <;> rfl
  case regDump x =>
    simp only [execRegDump, State.indexAddress_overwrite, State.regsUpTo_overwrite, State.memWriteRange_overwrite]
    cases s.memWriteRange (s.indexAddress 0) (s.regsUpTo x) <;> cases o <;> rfl
  case regLoad x =>
    simp only [execRegLoad, State.indexAddress_overwrite, State.memReadRange_overwrite, State.setRegsFrom_overwrite]
    cases s.memReadRange (s.indexAddress 0) (x.val + 1) <;> cases o <;> rfl
  case skipIfKeyPressed x =>
    simp only [execSkipIfKeyPressed, State.reg_overwrite, s.keyDown_overwrite (Overwrite.ne_keys ho rfl)]
    cases keyOperand (s.reg x) <;> cases o <;> rfl
  case skipIfKeyNotPressed x =>
    simp only [execSkipIfKeyNotPressed, State.reg_overwrite, s.keyDown_overwrite (Overwrite.ne_keys ho rfl)]
    cases keyOperand (s.reg x) <;> cases o <;> rfl
  case waitForKey x =>
    simp only [execWaitForKey, s.lowestKey_overwrite (Overwrite.ne_keys ho rfl)]
    cases s.lowestKey <;> cases o <;> rfl
  case random x nn =>
    cases o
    case rndCount => exact absurd rfl (ho x nn)
    all_goals rfl
  all_goals cases o <;> rfl

/-- When the instruction keeps the overwritten part, the two runs differ in nothing else. -/
theorem exec_overwrite_of_kept {i : Instr} (s : State) {o : Overwrite} (ho : o.unreadBy i)
    (hkept : ∀ t, exec i (s.overwrite o) = .next t → t.overwrite o = t) :
    exec i (s.overwrite o) = mapNext (·.overwrite o) (exec i s) := by
  obtain ⟨t, ht⟩ := exec_total i (s.overwrite o)
  rw [← exec_overwrite i s o ho, ht, mapNext, hkept t ht]

end Sys2Proof.Machine
end

section
/-! PROOF. What an instruction does not read (spec/10_state.md R37). -/
namespace Sys2Proof.Machine

/-- Settles O21: no effect writes the key state or the configuration, and only random moves the random input, so that for
any other instruction the run from another index differs in that index alone (`exec_overwrite_of_kept`). -/
theorem inputsAndConfigurationFrame : Obligations.InputsAndConfigurationFrame := by
  intro i s t h
  refine ⟨exec_keys h, exec_cfg h, fun hi => ⟨exec_rndCount h hi, fun n => ?_⟩⟩
  have hrun := exec_overwrite_of_kept s (o := .rndCount n) hi
    fun u hu => State.overwrite_rndCount_self (exec_rndCount hu hi)
  rw [h] at hrun
  exact hrun

/-- Settles O49: an instruction that reads no keys runs alike under any keys, and none writes them. -/
theorem keysReachOnlyKeyInstructions : Obligations.KeysReachOnlyKeyInstructions := by
  intro i s k hi
  exact exec_overwrite_of_kept s (o := .keys k) hi fun u hu => State.overwrite_keys_self (exec_keys hu)

/-- Settles O50: with `ST` and `DF` overwritten afterwards the two runs end in one state (`exec_overwrite`), so that
outside them they agree. -/
theorem soundTimerAndDrawFlagAreNeverRead : Obligations.SoundTimerAndDrawFlagAreNeverRead := by
  intro i s t t' b f h h'
  have hrun := exec_overwrite i s (.soundAndDrawFlag b f) trivial
  have hagree : t'.overwrite (.soundAndDrawFlag b f) = t.overwrite (.soundAndDrawFlag b f) := by
    rw [h, State.overwrite, h'] at hrun
    exact Host.Outcome.next.inj hrun
  exact congrArg (fun u => { u with st := t.st, df := t.df }) hagree

end Sys2Proof.Machine
end

section
/-! PROOF. Access to memory, and the font (spec/20_memory.md R51 to R54). -/
namespace Sys2Proof.Machine

/-- Settles O10: such a cycle is AccessFault(fetch) at once (`step_of_gt`), and `PC` fits the payload's 16 bits. -/
theorem fetchFaultsAboveLastWord : Obligations.FetchFaultsAboveLastWord := by
  intro s hpc
  rw [step_of_gt s hpc, raiseAccess_eq]
  refine ⟨_, rfl, ?_⟩
  show CycleOutcome.accessFault .fetch (BitVec.ofNat 16 s.pc.toNat) s.pc = _
  rw [BitVec.ofNat_toNat, BitVec.setWidth_eq]

/-- Settles O42: the two ranges of errors, and a store elsewhere is a `Memory.writeByte` of a canonical memory. -/
theorem memoryPrimitives : Obligations.MemoryPrimitives := by
  intro s a v
  refine ⟨memRead_error s, fun hbad => memWrite_error s v (by omega), fun hwf hlo hhi => ?_⟩
  refine ⟨s.setByte a v, memWrite_ok s v hlo hhi, ?_, fun b hb => ?_, Memory.wf_writeByte hwf v hlo hhi⟩
  · rw [memRead_ok _ hhi]
    exact congrArg _ (Memory.readByte_writeByte_self s.cfg.font hwf v hlo)
  · exact Memory.readByte_writeByte_of_ne s.cfg.font s.mem v hb

/-- A cycle that answers a next state faults at the fetch, or runs an instruction and ticks unless that faulted. -/
theorem step_cases {s t : State} (h : step s = .next t) :
    (0xFFE < s.pc.toNat ∧ raiseAccess { kind := .fetch, addr := s.pc.toNat } s.beginCycle = .next t) ∨
    (s.pc.toNat ≤ 0xFFE ∧ ∃ u,
      exec (decodeWord (wordOfBytes (s.byteAt s.pc.toNat) (s.byteAt (s.pc.toNat + 1)))) s.beginCycle = .next u ∧
      t = if u.outcome.isFault then u else u.tick) := by
  rcases Nat.lt_or_ge 0xFFE s.pc.toNat with hpc | hpc
  · rw [step_of_gt s hpc] at h
    exact .inl ⟨hpc, h⟩
  · obtain ⟨u, hu⟩ := exec_total
      (decodeWord (wordOfBytes (s.byteAt s.pc.toNat) (s.byteAt (s.pc.toNat + 1)))) s.beginCycle
    rw [step_of_le s hpc, hu, endCycle_next] at h
    exact .inr ⟨hpc, u, hu, (Host.Outcome.next.inj h).symm⟩

/-- No cycle writes the configuration. -/
theorem step_cfg {s t : State} (h : step s = .next t) : t.cfg = s.cfg := by
  rcases step_cases h with ⟨_, hfault⟩ | ⟨_, u, hu, rfl⟩
  · cases hfault
    rfl
  · have hcfg : u.cfg = s.cfg := (exec_cfg hu).trans s.beginCycle_cfg
    split <;> exact hcfg

/-- A load writes memory only. -/
theorem loadProgram_cfg (bytes : List Byte) (s : State) : (loadProgram bytes s).2.cfg = s.cfg := by
  unfold loadProgram
  split <;> rfl

/-- No event of the host writes the configuration. -/
theorem handle_cfg {e : HostEvent} {s t : State} (h : handle e s = .next t) : t.cfg = s.cfg := by
  cases e with
  | cycle => exact step_cfg h
  | loadProgram bytes =>
    cases h
    exact loadProgram_cfg bytes s
  | reset | setKeys =>
    cases h
    rfl

/-- A byte of the font region is the configuration's, whatever memory lists. -/
theorem State.byteAt_of_lt (s : State) {a : Nat} (h : a < 0x50) : s.byteAt a = s.cfg.font[a]! := by
  rw [State.byteAt, Memory.readByte_of_lt s.cfg.font s.mem h, getElem!_pos s.cfg.font a h]

/-- Settles O54: no event writes the configuration (`handle_cfg`), and the font region reads as it says. -/
theorem fontIsNeverMutated : Obligations.FontIsNeverMutated := by
  intro e s t h
  have hcfg := handle_cfg h
  refine ⟨hcfg, fun a ha => ?_⟩
  have hfont : t.byteAt a = s.cfg.font[a]! := by rw [t.byteAt_of_lt ha, hcfg]
  exact ⟨hfont.trans (s.byteAt_of_lt ha).symm, hfont⟩

end Sys2Proof.Machine
end

section
/-! PROOF. Every cycle keeps the invariant: memory stays canonical, and the outputs agree with one another. -/
namespace Sys2Proof.Machine

/-! ### Memory stays canonical (spec/20_memory.md R51) -/

/-- An instruction that stores no byte leaves the list of cells as it is. -/
theorem exec_mem {i : Instr} {s t : State} (h : exec i s = .next t) (hi : storeLength i = 0) : t.mem = s.mem := by
  cases exec_effect h with
  | store _ bs hlen =>
    obtain rfl := List.eq_nil_of_length_eq_zero (hlen.trans hi)
    rfl
  | _ => rfl

theorem execBcd_wf {x : Reg} {s t : State} (h : execBcd x s = .next t) (hwf : Memory.wf s.mem = true) :
    Memory.wf t.mem = true := by
  by_cases hw : 0x50 ≤ s.i.toNat ∧ s.i.toNat + 3 ≤ 0x1000
  · rw [execBcd_of_writable x s hw.1 hw.2] at h
    cases h
    exact Memory.wf_writeRange _ hwf hw.1 hw.2
  · rw [execBcd_of_bad x s (by omega)] at h
    cases h
    exact hwf

theorem execRegDump_wf {x : Reg} {s t : State} (h : execRegDump x s = .next t) (hwf : Memory.wf s.mem = true) :
    Memory.wf t.mem = true := by
  by_cases hw : 0x50 ≤ s.i.toNat ∧ s.i.toNat + x.val + 1 ≤ 0x1000
  · rw [execRegDump_of_writable x s hw.1 hw.2] at h
    cases h
    exact Memory.wf_writeRange _ hwf hw.1 (by rw [State.length_regsUpTo]; omega)
  · rw [execRegDump_of_bad x s (by omega)] at h
    cases h
    exact hwf

/-- The two instructions that store bytes keep the canonical form, since a store that is not writable faults. -/
theorem exec_wf {i : Instr} {s t : State} (h : exec i s = .next t) (hwf : Memory.wf s.mem = true) :
    Memory.wf t.mem = true := by
  cases i with
  | bcd x => exact execBcd_wf h hwf
  | regDump x => exact execRegDump_wf h hwf
  | _ =>
    rw [exec_mem h rfl]
    exact hwf

/-! ### The outputs (spec/60_exceptions.md R176, R182) -/

/-- Reporting an outcome on a silent state gives the invariant, when a set draw flag goes with Normal. -/
theorem State.inv_report {s : State} {o : CycleOutcome} (hwf : Memory.wf s.mem = true) (htone : s.tone = false)
    (hdf : s.df = true → o = .normal) : (s.report o).Inv where
  memory := hwf
  tone h := Bool.noConfusion (htone.symm.trans h)
  drawFlag := hdf
  quiet hfault := by
    refine ⟨Bool.eq_false_iff.mpr fun h => ?_, htone⟩
    rw [hdf h] at hfault
    cases hfault
  recorded := note_note s.record o

/-- Every effect on a silent state with a clear draw flag, as phase 1 leaves it, gives the invariant: the one effect that
sets the flag reports Normal. -/
theorem Effect.inv {i : Instr} {s t : State} (he : Effect s i t) (hwf : Memory.wf t.mem = true)
    (htone : s.tone = false) (hdf : s.df = false) : t.Inv := by
  have hclear : ∀ {o : CycleOutcome}, s.df = true → o = .normal := fun h => Bool.noConfusion (hdf.symm.trans h)
  cases he with
  | fault => exact State.inv_report (s := { s with tone := false }) hwf rfl hclear
  | display => exact State.inv_report hwf htone fun _ => rfl
  | _ => exact State.inv_report hwf htone hclear

/-- The tick sounds the tone when it takes `ST` from 1 to 0, and touches nothing else the invariant speaks of. -/
theorem State.Inv.tick {s : State} (h : s.Inv) (hfault : s.outcome.isFault = false) : s.tick.Inv where
  memory := h.memory
  tone ht := by rw [tick_st, of_decide_eq_true ht]; rfl
  drawFlag := h.drawFlag
  quiet hf := Bool.noConfusion (hfault.symm.trans hf)
  recorded := h.recorded

/-- Settles O52: phase 1 makes the state silent, every effect from there gives the invariant (`Effect.inv`), be it of the
instruction or of a fetch that faults, and the tick keeps it. -/
theorem stepKeepsInvariant : Obligations.StepKeepsInvariant := by
  intro s t hs h
  rcases step_cases h with ⟨_, hfetch⟩ | ⟨_, u, hu, rfl⟩
  · cases hfetch
    exact State.inv_report (s := { s.beginCycle with tone := false }) hs.memory rfl Bool.noConfusion
  · have hinv : u.Inv := (exec_effect hu).inv (exec_wf hu hs.memory) rfl rfl
    split
    · exact hinv
    · next hfault => exact hinv.tick (Bool.eq_false_iff.mpr hfault)

end Sys2Proof.Machine
end

section
/-! SUPPORT. The decoder and the opcode table, class by class (spec/30_encoding.md R75, R76). -/
namespace Sys2Proof

/-- The sub-opcode, or the count, of an encoded word. -/
theorem fieldN_wordXYN {c n : BitVec 4} {x y : Reg} {k : Fin 16} (h : n.toNat = k.val) :
    fieldN (wordXYN c x y n) = k :=
  Fin.ext ((val_fieldN_wordXYN c x y n).trans h)

/-! ### A word of a known class from its fields (R72) -/

section
variable {w : Word} {c : BitVec 4}

theorem wordA_fields (hc : fieldClass w = c) : wordA c (fieldNnn w) = w := by
  rw [← hc, word_eq_wordA]

theorem wordXI_fields (hc : fieldClass w = c) : wordXI c (fieldX w) (fieldNn w) = w := by
  rw [← hc, word_eq_wordXI]

theorem wordX_fields {nn : Byte} (hc : fieldClass w = c) (hnn : fieldNn w = nn) : wordXI c (fieldX w) nn = w := by
  rw [← hnn, wordXI_fields hc]

theorem wordXYN_fields (hc : fieldClass w = c) :
    wordXYN c (fieldX w) (fieldY w) (fieldBits (fieldN w)) = w := by
  rw [← hc, word_eq_wordXYN]

theorem wordXY_fields {n : BitVec 4} (hc : fieldClass w = c) (hn : (fieldN w).val = n.toNat) :
    wordXYN c (fieldX w) (fieldY w) n = w := by
  have hbits : fieldBits (fieldN w) = n := BitVec.eq_of_toNat_eq ((toNat_fieldBits _).trans hn)
  rw [← hbits, wordXYN_fields hc]

/-! ### The mask tests of a word of a known class -/

theorem and_FFFF (w : Word) : w &&& 0xFFFF = w := BitVec.and_allOnes

theorem and_F0FF_eq_iff (hc : fieldClass w = c) (nn : Byte) : w &&& 0xF0FF = wordXI c 0 nn ↔ fieldNn w = nn := by
  rw [and_F0FF, hc]
  refine ⟨fun h => ?_, fun h => by rw [h]⟩
  simpa using congrArg fieldNn h

theorem and_F00F_eq_iff (hc : fieldClass w = c) (n : Fin 16) :
    w &&& 0xF00F = wordXYN c 0 0 (fieldBits n) ↔ fieldN w = n := by
  have hn : fieldBits (fieldN w) = w.extractLsb' 0 4 := by
    apply BitVec.eq_of_toNat_eq
    rw [toNat_fieldBits, fieldN]
  rw [and_F00F, hc, ← hn]
  refine ⟨fun h => ?_, fun h => congrArg (fun k => wordXYN c 0 0 (fieldBits k)) h⟩
  simpa only [fieldN_wordXYN (toNat_fieldBits _)] using congrArg fieldN h

end

/-! ### The rows of one class -/

/-- The rows of R75 whose words are of class `c`. -/
def classRows (c : BitVec 4) : List (Word × Word) := opcodeRows.filter fun row => fieldClass row.2 == c

/-- Every mask keeps the class, so a word matches rows of its own class only. -/
theorem fieldClass_of_row {w : Word} {row : Word × Word} (hrow : row ∈ opcodeRows) (h : w &&& row.1 = row.2) :
    fieldClass row.2 = fieldClass w := by
  have hmasks : opcodeRows.all (fun r => r.1 &&& 0xF000 == 0xF000) = true := by decide
  have hmask : row.1 &&& 0xF000 = 0xF000 := beq_iff_eq.mp (List.all_eq_true.mp hmasks row hrow)
  have hand : row.2 &&& 0xF000 = w &&& 0xF000 := by rw [← h, BitVec.and_assoc, hmask]
  rw [and_F000, and_F000] at hand
  simpa using congrArg fieldClass hand

theorem supportedWord_iff (w : Word) : supportedWord w = true ↔ ∃ row ∈ opcodeRows, w &&& row.1 = row.2 := by
  simp [supportedWord, matchesRow]

/-- A word is supported when it matches a row of its own class. -/
theorem supportedWord_iff_classRows {w : Word} {c : BitVec 4} (hc : fieldClass w = c) :
    supportedWord w = true ↔ ∃ row ∈ classRows c, w &&& row.1 = row.2 := by
  rw [supportedWord_iff]
  constructor
  · rintro ⟨row, hrow, h⟩
    exact ⟨row, List.mem_filter.mpr ⟨hrow, beq_iff_eq.mpr ((fieldClass_of_row hrow h).trans hc)⟩, h⟩
  · rintro ⟨row, hrow, h⟩
    exact ⟨row, List.mem_of_mem_filter hrow, h⟩

/-- Where the rows of a class share one mask, and its test compares one part of the word, the supported words are those
whose part is listed. -/
theorem supportedWord_iff_mem {α : Type} {w mask : Word} {c : BitVec 4} {part : α} {listed : List α}
    {f : α → Word} (hc : fieldClass w = c) (hrows : classRows c = listed.map fun k => (mask, f k))
    (htest : ∀ k, w &&& mask = f k ↔ part = k) : supportedWord w = true ↔ part ∈ listed := by
  simp [supportedWord_iff_classRows hc, hrows, htest]

/-! ### Which words of a class are unsupported (R77) -/

section
variable {w : Word}

theorem decodeClass0_eq_unsupported_iff (hc : fieldClass w = 0x0) :
    decodeClass0 w = .unsupported w ↔ ¬ supportedWord w = true := by
  have hw : supportedWord w = true ↔ w ∈ [0x00E0, 0x00EE] :=
    supportedWord_iff_mem (mask := 0xFFFF) (f := fun k => k) hc (by decide) fun k => by rw [and_FFFF]
  rw [hw, decodeClass0]
  split_ifs <;> simp [*]

theorem decodeClass5_eq_unsupported_iff (hc : fieldClass w = 0x5) :
    decodeClass5 w = .unsupported w ↔ ¬ supportedWord w = true := by
  have hn := supportedWord_iff_mem (listed := [0x0]) hc (by decide) (and_F00F_eq_iff hc)
  rw [hn, decodeClass5]
  split_ifs <;> simp [*]

theorem decodeClass8_eq_unsupported_iff (hc : fieldClass w = 0x8) :
    decodeClass8 w = .unsupported w ↔ ¬ supportedWord w = true := by
  have hn := supportedWord_iff_mem (listed := [0x0, 0x1, 0x2, 0x3, 0x4, 0x5, 0x6, 0x7, 0xE]) hc (by decide)
    (and_F00F_eq_iff hc)
  rw [hn, decodeClass8]
  split <;> simp_all [Fin.ext_iff, -Fin.val_eq_zero_iff]

theorem decodeClass9_eq_unsupported_iff (hc : fieldClass w = 0x9) :
    decodeClass9 w = .unsupported w ↔ ¬ supportedWord w = true := by
  have hn := supportedWord_iff_mem (listed := [0x0]) hc (by decide) (and_F00F_eq_iff hc)
  rw [hn, decodeClass9]
  split_ifs <;> simp [*]

theorem decodeClassE_eq_unsupported_iff (hc : fieldClass w = 0xE) :
    decodeClassE w = .unsupported w ↔ ¬ supportedWord w = true := by
  have hnn := supportedWord_iff_mem (listed := [0x9E, 0xA1]) hc (by decide) (and_F0FF_eq_iff hc)
  rw [hnn, decodeClassE]
  split_ifs <;> simp [*]

theorem decodeClassF_eq_unsupported_iff (hc : fieldClass w = 0xF) :
    decodeClassF w = .unsupported w ↔ ¬ supportedWord w = true := by
  have hnn := supportedWord_iff_mem (listed := [0x07, 0x0A, 0x15, 0x18, 0x1E, 0x29, 0x33, 0x55, 0x65]) hc (by decide)
    (and_F0FF_eq_iff hc)
  rw [hnn, decodeClassF]
  split_ifs <;> simp [*]

/-- In a class with one row, of mask `0xF000`, no word is unsupported. -/
theorem eq_unsupported_iff_of_class {i : Instr} {c : BitVec 4} (hc : fieldClass w = c)
    (hrow : (0xF000, wordA c 0) ∈ opcodeRows) (hi : i ≠ .unsupported w) :
    i = .unsupported w ↔ ¬ supportedWord w = true :=
  iff_of_false hi (not_not_intro (Laws.supportedWord_of_row _ hrow (by rw [and_F000, hc])))

end

/-! ### Encoding what a class decodes to -/

section
variable {w : Word}

theorem encode_decodeClass0 (w : Word) : encode (decodeClass0 w) = w := by
  unfold decodeClass0
  split_ifs <;> simp [encode, *]

theorem encode_decodeClass5 (hc : fieldClass w = 0x5) : encode (decodeClass5 w) = w := by
  unfold decodeClass5
  split
  · next hn => exact wordXY_fields hc (congrArg Fin.val hn)
  · rfl

theorem encode_decodeClass8 (hc : fieldClass w = 0x8) : encode (decodeClass8 w) = w := by
  unfold decodeClass8
  split
  case h_10 => rfl
  all_goals next hn => exact wordXY_fields hc hn

theorem encode_decodeClass9 (hc : fieldClass w = 0x9) : encode (decodeClass9 w) = w := by
  unfold decodeClass9
  split
  · next hn => exact wordXY_fields hc (congrArg Fin.val hn)
  · rfl

theorem encode_decodeClassE (hc : fieldClass w = 0xE) : encode (decodeClassE w) = w := by
  unfold decodeClassE
  split_ifs
  case neg => rfl
  all_goals exact wordX_fields hc ‹_›

theorem encode_decodeClassF (hc : fieldClass w = 0xF) : encode (decodeClassF w) = w := by
  unfold decodeClassF
  split_ifs
  case neg => rfl
  all_goals exact wordX_fields hc ‹_›

end

/-! ### The decoding procedure, by the class of the word (R76) -/

section
variable {w : Word}

theorem fieldClass_eq_of_toNat {n : Nat} (h : (fieldClass w).toNat = n) : fieldClass w = BitVec.ofNat 4 n := by
  rw [← h, BitVec.ofNat_toNat, BitVec.setWidth_eq]

theorem fieldClass_eq_F (h : 14 < (fieldClass w).toNat) : fieldClass w = 0xF := by
  have hlt := (fieldClass w).isLt
  exact fieldClass_eq_of_toNat (n := 15) (by omega)

end

/-- The decoding procedure gives `unsupported` for exactly the words that match no row. -/
theorem decodeWord_eq_unsupported_iff (w : Word) : decodeWord w = .unsupported w ↔ ¬ supportedWord w = true := by
  unfold decodeWord
  split
  case h_1 h => exact decodeClass0_eq_unsupported_iff (fieldClass_eq_of_toNat h)
  case h_6 h => exact decodeClass5_eq_unsupported_iff (fieldClass_eq_of_toNat h)
  case h_9 h => exact decodeClass8_eq_unsupported_iff (fieldClass_eq_of_toNat h)
  case h_10 h => exact decodeClass9_eq_unsupported_iff (fieldClass_eq_of_toNat h)
  case h_15 h => exact decodeClassE_eq_unsupported_iff (fieldClass_eq_of_toNat h)
  case h_16 => exact decodeClassF_eq_unsupported_iff (fieldClass_eq_F (by simp only [imp_false] at *; omega))
  all_goals next h => exact eq_unsupported_iff_of_class (fieldClass_eq_of_toNat h) (by decide) nofun

/-- Encoding what a word decodes to puts every field back in its place. -/
theorem encode_decodeWord (w : Word) : encode (decodeWord w) = w := by
  unfold decodeWord
  split
  case h_1 => exact encode_decodeClass0 w
  case h_6 h => exact encode_decodeClass5 (fieldClass_eq_of_toNat h)
  case h_9 h => exact encode_decodeClass8 (fieldClass_eq_of_toNat h)
  case h_10 h => exact encode_decodeClass9 (fieldClass_eq_of_toNat h)
  case h_14 h => exact wordXYN_fields (fieldClass_eq_of_toNat h)
  case h_15 h => exact encode_decodeClassE (fieldClass_eq_of_toNat h)
  case h_16 => exact encode_decodeClassF (fieldClass_eq_F (by simp only [imp_false] at *; omega))
  case h_2 h | h_3 h | h_11 h | h_12 h => exact wordA_fields (fieldClass_eq_of_toNat h)
  all_goals next h => exact wordXI_fields (fieldClass_eq_of_toNat h)

/-- The payload of `unsupported` is the word itself. -/
theorem eq_of_decodeWord_eq_unsupported {w v : Word} (h : decodeWord w = .unsupported v) : v = w := by
  have henc := encode_decodeWord w
  rwa [h] at henc

/-- What a word decodes to is well formed: `unsupported` is given only to a word that no row matches. -/
theorem wf_decodeWord (w : Word) : (decodeWord w).wf = true := by
  cases h : decodeWord w with
  | unsupported v =>
    obtain rfl := eq_of_decodeWord_eq_unsupported h
    simpa [Instr.wf] using (decodeWord_eq_unsupported_iff v).mp h
  | _ => rfl

/-! ### Decoding an encoded word -/

/-- Decoding reads the fields that encoding wrote, format by format (R72). -/
theorem decodeWord_encode {i : Instr} (hi : i.wf = true) : decodeWord (encode i) = i := by
  cases i
  case unsupported w => exact (decodeWord_eq_unsupported_iff w).mpr (by simpa [Instr.wf] using hi)
  case clearScreen | ret => decide
  case jump | call | loadIndex | jumpOffset => simp [encode, decodeWord]
  case skipIfEqual | skipIfNotEqual | load | addImm | random => simp [encode, decodeWord]
  case draw x y n => simp [encode, decodeWord, fieldN_wordXYN (toNat_fieldBits n)]
  case skipIfRegEqual | skipIfRegNotEqual =>
    simp [encode, decodeWord, decodeClass5, decodeClass9, fieldN_wordXYN (k := 0)]
  case assign | orReg | andReg | xorReg | addReg | sub | shiftRight | subReverse | shiftLeft =>
    simp [encode, decodeWord, decodeClass8]
  case skipIfKeyPressed | skipIfKeyNotPressed => simp [encode, decodeWord, decodeClassE]
  case getDelay | waitForKey | setDelay | setSound | addToIndex | fontCharAddress | bcd | regDump | regLoad =>
    simp [encode, decodeWord, decodeClassF]

end Sys2Proof
end

section
/-! PROOF. The encoding (spec/30_encoding.md), and the action for unsupported words (R77). -/
namespace Sys2Proof

/-- Settles O1: an encoded word decodes to the instruction it was made of (`decodeWord_encode`). -/
theorem decodeOfEncode : Obligations.DecodeOfEncode := fun _ => decodeWord_encode

/-- Settles O2: the two halves are `encode_decodeWord` and `wf_decodeWord`. -/
theorem encodeOfDecode : Obligations.EncodeOfDecode := fun w => ⟨encode_decodeWord w, wf_decodeWord w⟩

/-- Settles O3: the decoder agrees with the table class by class (`decodeWord_eq_unsupported_iff`), and a word is
supported when some row matches it (`supportedWord_iff`). -/
theorem unsupportedIffNoRowMatches : Obligations.UnsupportedIffNoRowMatches := by
  intro w
  rw [decodeWord_eq_unsupported_iff, supportedWord_iff]
  push Not
  rfl

/-- Any two rows of the table prescribe different bits where both their masks look. -/
theorem opcodeRows_pairwise_conflict : opcodeRows.Pairwise fun a b => a.2 &&& b.1 ≠ b.2 &&& a.1 := by decide

/-- Settles O4: a word that matches two rows agrees with both where both their masks look, which different rows rule out
(`opcodeRows_pairwise_conflict`). -/
theorem opcodeRowsAreDisjoint : Obligations.OpcodeRowsAreDisjoint := by
  intro w a ha b hb hwa hwb
  by_contra hne
  have hsymm : Std.Symm fun a b : Word × Word => a.2 &&& b.1 ≠ b.2 &&& a.1 := ⟨fun _ _ h => h.symm⟩
  refine opcodeRows_pairwise_conflict.forall ha hb hne ?_
  rw [← hwa, ← hwb, BitVec.and_assoc, BitVec.and_assoc, BitVec.and_comm a.1]

/-- Settles O5: the decoder runs on each of the eight words. -/
theorem sampleWordsDecode : Obligations.SampleWordsDecode := by
  refine ⟨?_, ?_, ?_, ?_, ?_, ?_, ?_, ?_⟩ <;> decide

end Sys2Proof

namespace Sys2Proof.Machine

/-- Settles O6: the fetch is in range (`fetch_of_le`), and its word is the two bytes in order (`toNat_wordOfBytes`). -/
theorem fetchReadsBigEndianWord : Obligations.FetchReadsBigEndianWord :=
  fun s hpc => ⟨_, fetch_of_le s hpc, toNat_wordOfBytes _ _⟩

/-- The arm of `exec` for a word that no row matches. -/
theorem exec_unsupported (w : Word) (s : State) :
    exec (.unsupported w) s = .next (s.advance.report (.decodeFailure s.pc w)) := rfl

/-- A cycle on a word that no row matches: phase 1, the report, and the tick (spec/60_exceptions.md R172, R181). -/
theorem step_unsupported {s : State} (hpc : s.pc.toNat ≤ 0xFFE)
    (hno : ∀ row ∈ opcodeRows, wordOfBytes (s.byteAt s.pc.toNat) (s.byteAt (s.pc.toNat + 1)) &&& row.1 ≠ row.2) :
    step s = .next (s.beginCycle.advance.report (.decodeFailure s.pc
      (wordOfBytes (s.byteAt s.pc.toNat) (s.byteAt (s.pc.toNat + 1))))).tick := by
  rw [step_of_le s hpc, (unsupportedIffNoRowMatches _).mpr hno, exec_unsupported]
  rfl

/-- Settles O14: `exec_unsupported` is the instruction, `step_unsupported` the cycle; in range, `PC + 2` does not
wrap. -/
theorem unsupportedWordIsReported : Obligations.UnsupportedWordIsReported := by
  refine ⟨fun w s => ⟨_, exec_unsupported w s, BitVec.toNat_add s.pc 2, rfl, rfl⟩, ?_⟩
  rintro _ s hpc hno rfl
  refine ⟨_, step_unsupported hpc hno, rfl, ?_, rfl, countDown_toNat s.dt, countDown_toNat s.st, ?_⟩
  · have hadd : (s.pc + 2).toNat = (s.pc.toNat + 2) % 65536 := BitVec.toNat_add s.pc 2
    exact hadd.trans (Nat.mod_eq_of_lt (by omega))
  · exact decide_eq_true_iff.trans BitVec.toNat_inj.symm

end Sys2Proof.Machine
end

section
/-! PROOF. Control flow (spec/40_control_flow.md): jumps and skips move `PC` only; a return undoes what its call did
to `SP` and resumes after it. -/
namespace Sys2Proof.Machine

/-! ### Jumps and skips -/

/-- An instruction that completes after a write of `PC` moves to the address written and changes nothing else. -/
theorem onlyMovesTo_of_setPc {i : Instr} {s : State} {w : Word} {pc : Nat}
    (h : exec i s = complete (s.setPc w)) (hw : w.toNat = pc) :
    ∃ t, exec i s = .next t ∧ t.onlyMovesTo s pc :=
  ⟨_, h, hw, rfl⟩

/-- An instruction that completes after a skip moves `PC` by 4 when the tested comparison holds, else by 2
(spec/00_scope.md R11). -/
theorem onlyMovesTo_of_skipWhen {i : Instr} {s : State} {c : Bool} {p : Prop} [Decidable p]
    (h : exec i s = complete (s.skipWhen c)) (hc : c = true ↔ p) :
    ∃ t, exec i s = .next t ∧ t.onlyMovesTo s ((s.pc.toNat + if p then 4 else 2) % 65536) := by
  refine onlyMovesTo_of_setPc h ((s.toNat_pc_skipWhen c).trans ?_)
  simp only [hc]

/-- Settles O22: jump is a write of `PC`, and the zero-extended address is the address (`toNat_addressOperand`). -/
theorem jumpTransfersControl : Obligations.JumpTransfersControl :=
  fun nnn _ => onlyMovesTo_of_setPc rfl (toNat_addressOperand nnn)

/-- Settles O23: each of the four is a skip on its own comparison (`onlyMovesTo_of_skipWhen`). -/
theorem skipsCompareAndMovePcOnly : Obligations.SkipsCompareAndMovePcOnly := fun _ _ _ _ =>
  ⟨onlyMovesTo_of_skipWhen rfl beq_iff_eq, onlyMovesTo_of_skipWhen rfl bne_iff_ne,
    onlyMovesTo_of_skipWhen rfl beq_iff_eq, onlyMovesTo_of_skipWhen rfl bne_iff_ne⟩

/-- Settles O24: jump-offset is a write of `PC`, and a byte plus a 12-bit address stays below 2^16
(`toNat_offsetTarget`). -/
theorem jumpOffsetAddsRegisterZero : Obligations.JumpOffsetAddsRegisterZero :=
  fun nnn s => onlyMovesTo_of_setPc rfl (toNat_offsetTarget s nnn)

/-! ### Call and return -/

/-- What each stack entry reads after one is written. -/
theorem State.stackEntry_set (s : State) {n : Nat} (h : n < 16) (w : Word) (k : StackIndex) :
    ({ s with stack := s.stack.set n w h }).stackEntry k = if k.val = n then w else s.stackEntry k := by
  simp only [State.stackEntry, Vector.getElem_set, eq_comm (a := n)]

/-- Settles O25: a call below capacity completes with its address pushed (`execCall_of_lt`), and one on a full stack is a
StackFault (`execCall_of_full`), which writes outputs only. -/
theorem callPushesItsAddress : Obligations.CallPushesItsAddress := by
  refine ⟨fun nnn s h => ?_, fun nnn s h => ?_⟩
  · exact ⟨_, execCall_of_lt nnn s h, toNat_addressOperand nnn, rfl, s.stackEntry_set h s.pc, rfl⟩
  · exact ⟨_, execCall_of_full nnn s h, rfl, rfl⟩

/-- Settles O26: a return with an entry in use completes two past it (`execRet_of_pos`), and one on an empty stack is a
StackFault (`execRet_of_empty`), which writes outputs only. -/
theorem returnPopsAndAdvances : Obligations.ReturnPopsAndAdvances := by
  refine ⟨fun s top h => ?_, fun s h => ?_⟩
  · have htop : s.sp.val - 1 = top.val := by omega
    refine ⟨_, execRet_of_pos s (by omega), ?_, htop, rfl⟩
    simp only [htop]
    exact State.toNat_pc_add_two (s.stackEntry top)
  · exact ⟨_, execRet_of_empty s h, rfl, rfl⟩

/-- Settles O27: the call leaves its address in the entry below the new `SP` (`callPushesItsAddress`), the stack and `SP`
of the later state make that the entry return pops (`returnPopsAndAdvances`), and 2 past it is the next instruction. -/
theorem returnResumesAfterItsCall : Obligations.ReturnResumesAfterItsCall := by
  intro nnn s hsp
  obtain ⟨t, hcall, -, htsp, hentry, -⟩ := callPushesItsAddress.1 nnn s hsp
  refine ⟨t, hcall, fun t' hsp' hstack' => ?_⟩
  have htop : t'.stackEntry ⟨s.sp.val, hsp⟩ = s.pc := by
    rw [State.stackEntry, hstack']
    exact (hentry ⟨s.sp.val, hsp⟩).trans (if_pos rfl)
  obtain ⟨u, hret, hpc, husp, hu⟩ := returnPopsAndAdvances.1 t' ⟨s.sp.val, hsp⟩ (hsp' ▸ htsp)
  refine ⟨u, hret, congrArg State.outcome hu, BitVec.eq_of_toNat_eq ?_, Fin.ext husp⟩
  rw [hpc, htop, State.toNat_pc_add_two]

end Sys2Proof.Machine
end

section
/-! SUPPORT. Register and arithmetic instructions (spec/41_register_alu.md): their flags and results in numbers, and what
is left by an instruction that completes after its register writes. -/
namespace Sys2Proof.Machine

/-! ### Flags and results in numbers -/

/-- The carry, in numbers (spec/41_register_alu.md R126). -/
theorem toNat_carryFlag (a b : Byte) : (carryFlag a b).toNat = if 255 < a.toNat + b.toNat then 1 else 0 := by
  simp only [carryFlag, toNat_flagByte, decide_eq_true_iff]

/-- The inverted borrow, in numbers: equal operands borrow nothing (92 D19). -/
theorem toNat_noBorrowFlag (a b : Byte) : (noBorrowFlag a b).toNat = if a.toNat < b.toNat then 0 else 1 := by
  rw [noBorrowFlag, toNat_flagByte]
  by_cases h : a.toNat < b.toNat <;> simp [h]

/-- The bit shift-right loses is the parity. -/
theorem toNat_shiftRightFlag (a : Byte) : (shiftRightFlag a).toNat = a.toNat % 2 := by
  rw [shiftRightFlag, toNat_flagByte, BitVec.getLsbD, Nat.testBit_zero]
  rcases Nat.mod_two_eq_zero_or_one a.toNat with h | h <;> simp [h]

/-- The bit shift-left loses is the upper half of the range. -/
theorem toNat_shiftLeftFlag (a : Byte) : (shiftLeftFlag a).toNat = a.toNat / 128 := by
  have hlt : a.toNat / 128 < 2 := Nat.div_lt_of_lt_mul a.isLt
  rw [shiftLeftFlag, toNat_flagByte, BitVec.getLsbD, Nat.testBit_eq_decide_div_mod_eq]
  have hcase : a.toNat / 128 = 0 ∨ a.toNat / 128 = 1 := by omega
  rcases hcase with h | h <;> simp [h]

/-- A difference of bytes, with the borrowed 256 written out. -/
theorem toNat_sub_byte (a b : Byte) : (a - b).toNat = (a.toNat + 256 - b.toNat) % 256 := by
  have hb := b.isLt
  rw [BitVec.toNat_sub]
  congr 1
  omega

theorem toNat_shiftRight_one (a : Byte) : (a >>> 1).toNat = a.toNat / 2 := by
  rw [BitVec.toNat_ushiftRight, Nat.shiftRight_eq_div_pow, Nat.pow_one]

theorem toNat_shiftLeft_one (a : Byte) : (a <<< 1).toNat = a.toNat * 2 % 256 := by
  rw [BitVec.toNat_shiftLeft, Nat.shiftLeft_eq, Nat.pow_one]

/-! ### Completing after register writes -/

/-- Advancing and reporting Normal completes the instruction, whatever was written besides `PC`. -/
theorem completesAfter_advance {s u : State} (h : u.pc = s.pc) : (u.advance.report .normal).completesAfter s :=
  ⟨rfl, h ▸ u.toNat_pc_advance⟩

variable {i : Instr} {s : State} {x : Reg} {b f : Byte}

/-- One register write: the register reads the byte written, every other its old value. -/
theorem exec_of_setReg (h : exec i s = complete (s.setReg x b).advance) :
    ∃ t, exec i s = .next t ∧ t.completesAfter s ∧ t.reg x = b ∧ t.sameRegsBut s [x] :=
  ⟨_, h, completesAfter_advance rfl, s.reg_setReg_self x b,
    State.sameRegsBut_setReg b (List.mem_singleton_self x) (s.sameRegsBut_refl _)⟩

/-- One register write, its byte given by its bits. -/
theorem exec_of_setReg_bits {bit : Nat → Bool} (h : exec i s = complete (s.setReg x b).advance)
    (hb : ∀ k, b.getLsbD k = bit k) :
    ∃ t, exec i s = .next t ∧ t.completesAfter s ∧ t.sameRegsBut s [x] ∧ ∀ k, (t.reg x).getLsbD k = bit k := by
  obtain ⟨t, hrun, hend, rfl, hkeep⟩ := exec_of_setReg h
  exact ⟨t, hrun, hend, hkeep, hb⟩

/-- Result, then flag: VF reads the flag even when it is the destination too (92 D18). -/
theorem exec_of_setReg_setFlag {result flag : Nat} (h : exec i s = complete ((s.setReg x b).setFlag f).advance)
    (hb : b.toNat = result) (hf : f.toNat = flag) :
    ∃ t, exec i s = .next t ∧ t.completesAfter s ∧ (x ≠ 15 → (t.reg x).toNat = result) ∧ (t.reg 15).toNat = flag ∧
      t.sameRegsBut s [x, 15] := by
  refine ⟨_, h, completesAfter_advance rfl, fun hx => ?_, ?_, ?_⟩
  · rw [State.reg_report, State.reg_advance, State.reg_setFlag, if_neg hx, State.reg_setReg_self, hb]
  · rw [State.reg_report, State.reg_advance, State.reg_setFlag, if_pos rfl, hf]
  · exact State.sameRegsBut_setReg f (by simp) (State.sameRegsBut_setReg b (by simp) (s.sameRegsBut_refl _))

/-- Flag, then result: the destination reads the result even when it is VF (92 D18). -/
theorem exec_of_setFlag_setReg {result flag : Nat} (h : exec i s = complete ((s.setFlag f).setReg x b).advance)
    (hb : b.toNat = result) (hf : f.toNat = flag) :
    ∃ t, exec i s = .next t ∧ t.completesAfter s ∧ (t.reg x).toNat = result ∧ (x ≠ 15 → (t.reg 15).toNat = flag) ∧
      t.sameRegsBut s [x, 15] := by
  refine ⟨_, h, completesAfter_advance rfl, ?_, fun hx => ?_, ?_⟩
  · rw [State.reg_report, State.reg_advance, State.reg_setReg_self, hb]
  · rw [State.reg_report, State.reg_advance, State.reg_setReg_of_ne _ b hx.symm, State.reg_setFlag, if_pos rfl, hf]
  · exact State.sameRegsBut_setReg b (by simp) (State.sameRegsBut_setReg f (by simp) (s.sameRegsBut_refl _))

end Sys2Proof.Machine
end

section
/-! PROOF. Register and arithmetic instructions (spec/41_register_alu.md): each is one of the three shapes of register
writes, and random is one write with the random input moved on. -/
namespace Sys2Proof.Machine

/-- Settles O28: each is one register write (`exec_of_setReg`). -/
theorem loadAndAssignWriteTheirRegister : Obligations.LoadAndAssignWriteTheirRegister :=
  fun _ _ _ _ => ⟨exec_of_setReg rfl, exec_of_setReg rfl⟩

/-- Settles O29: one register write (`exec_of_setReg`), of a sum of bytes, which wraps at 256. -/
theorem addImmediateWrapsWithoutFlag : Obligations.AddImmediateWrapsWithoutFlag := by
  intro x nn s
  obtain ⟨t, hrun, hend, hreg, hkeep⟩ := exec_of_setReg (i := .addImm x nn) (s := s) rfl
  exact ⟨t, hrun, hend, hreg ▸ BitVec.toNat_add _ _, hkeep⟩

/-- Settles O30: each is one register write of a byte known by its bits (`exec_of_setReg_bits`). -/
theorem logicCombinesBitsWithoutFlag : Obligations.LogicCombinesBitsWithoutFlag := fun _ _ _ =>
  ⟨exec_of_setReg_bits rfl fun _ => BitVec.getLsbD_or, exec_of_setReg_bits rfl fun _ => BitVec.getLsbD_and,
    exec_of_setReg_bits rfl fun _ => BitVec.getLsbD_xor⟩

/-- Settles O31: the sum, then the carry (`exec_of_setReg_setFlag`). -/
theorem addReportsCarry : Obligations.AddReportsCarry :=
  fun _ _ _ => exec_of_setReg_setFlag rfl (BitVec.toNat_add _ _) (toNat_carryFlag _ _)

/-- Settles O32: each is the difference, then the inverted borrow (`exec_of_setReg_setFlag`). -/
theorem subtractionsReportNoBorrow : Obligations.SubtractionsReportNoBorrow := fun _ _ _ =>
  ⟨exec_of_setReg_setFlag rfl (toNat_sub_byte _ _) (toNat_noBorrowFlag _ _),
    exec_of_setReg_setFlag rfl (toNat_sub_byte _ _) (toNat_noBorrowFlag _ _)⟩

/-- Settles O33: each is the bit shifted out, then the result (`exec_of_setFlag_setReg`). -/
theorem shiftsReportTheBitShiftedOut : Obligations.ShiftsReportTheBitShiftedOut := fun _ _ _ =>
  ⟨exec_of_setFlag_setReg rfl (toNat_shiftRight_one _) (toNat_shiftRightFlag _),
    exec_of_setFlag_setReg rfl (toNat_shiftLeft_one _) (toNat_shiftLeftFlag _)⟩

/-- Settles O34: the masked byte is written before the random input moves on, and random writes no other register
(`exec_sameRegsBut`). -/
theorem randomIsMaskedByte : Obligations.RandomIsMaskedByte := by
  intro x nn s
  refine ⟨_, rfl, completesAfter_advance rfl, fun k => ?_, exec_sameRegsBut (i := .random x nn) rfl, rfl⟩
  rw [State.reg_report, State.reg_advance, State.reg_drawRandom, State.reg_setReg_self, State.rnd, BitVec.getLsbD_and]

end Sys2Proof.Machine
end

section
/-! SUPPORT. Index-register and memory instructions (spec/42_index_and_memory.md): their values in numbers, and what is
left by an instruction that completes after a write of `I` or a store of bytes. -/
namespace Sys2Proof.Machine

/-! ### Values in numbers -/

/-- The flag of the unwrapped sum, in numbers (spec/42_index_and_memory.md R141; 92 D20). -/
theorem toNat_indexOverflowFlag (index : Word) (b : Byte) :
    (indexOverflowFlag index b).toNat = if 0x0FFF < index.toNat + b.toNat then 1 else 0 := by
  simp only [indexOverflowFlag, toNat_flagByte, decide_eq_true_iff]
  rfl

/-- The sum that add-to-index keeps, in numbers. -/
theorem toNat_add_byteOperand (w : Word) (b : Byte) : (w + byteOperand b).toNat = (w.toNat + b.toNat) % 65536 := by
  rw [BitVec.toNat_add, toNat_byteOperand]

@[simp] theorem length_bcdDigits (b : Byte) : (bcdDigits b).length = 3 := rfl

/-- The three digits, in numbers (spec/42_index_and_memory.md R143): each fits its byte. -/
theorem toNat_bcdDigits (b : Byte) :
    (bcdDigits b)[0].toNat = b.toNat / 100 ∧ (bcdDigits b)[1].toNat = b.toNat / 10 % 10 ∧
      (bcdDigits b)[2].toNat = b.toNat % 10 := by
  have hb := b.isLt
  exact ⟨Nat.mod_eq_of_lt (by omega), Nat.mod_eq_of_lt (by omega), Nat.mod_eq_of_lt (by omega)⟩

/-! ### Completing after a write of `I`, or after a store -/

variable {i : Instr} {s : State}

/-- A write of `I` is seen in `I`, and in no register and no byte. -/
theorem exec_of_setIndex {w : Word} {n : Nat} (h : exec i s = complete (s.setIndex w).advance) (hw : w.toNat = n) :
    ∃ t, exec i s = .next t ∧ t.completesAfter s ∧ t.i.toNat = n ∧ t.sameRegsBut s [] ∧
      ∀ a, t.byteAt a = s.byteAt a :=
  ⟨_, h, completesAfter_advance rfl, hw, s.sameRegsBut_refl [], fun _ => rfl⟩

/-- A store of bytes from `I` up to writable addresses of a canonical memory is seen in those bytes, and in no other
byte, no register and not in `I`. -/
theorem exec_of_store {bs : List Byte} (h : exec i s =
      complete ({ s with mem := Memory.writeRange s.mem s.i.toNat bs }).advance)
    (hwf : Memory.wf s.mem = true) (hlo : 0x50 ≤ s.i.toNat) (hhi : s.i.toNat + bs.length ≤ 0x1000) :
    ∃ t, exec i s = .next t ∧ t.completesAfter s ∧
      (∀ (k : Nat) (hk : k < bs.length), t.byteAt (s.i.toNat + k) = bs[k]) ∧
      (∀ a, (a < s.i.toNat ∨ s.i.toNat + bs.length ≤ a) → t.byteAt a = s.byteAt a) ∧
      t.i = s.i ∧ t.sameRegsBut s [] :=
  ⟨_, h, completesAfter_advance rfl, Memory.readByte_writeRange_inside s.cfg.font bs hwf hlo hhi,
    Memory.readByte_writeRange_of_outside s.cfg.font bs s.mem s.i.toNat, rfl, s.sameRegsBut_refl []⟩

/-! ### The registers that reg-load fills -/

/-- Register `k` of those loaded is the byte at `a + k`. -/
theorem State.reg_setRegsFrom_bytes (s : State) (a : Nat) (x k : Reg) :
    (s.setRegsFrom 0 (s.bytes a (x.val + 1))).reg k = if k ≤ x then s.byteAt (a + k.val) else s.reg k := by
  have hwindow : (0 ≤ k.val ∧ k.val - 0 < (s.bytes a (x.val + 1)).length) ↔ k ≤ x := by
    rw [List.length_map, List.length_range, Fin.le_def]
    omega
  rw [reg_setRegsFrom]
  by_cases hk : k ≤ x
  · rw [dif_pos (hwindow.mpr hk), if_pos hk]
    simp
  · rw [dif_neg (mt hwindow.mp hk), if_neg hk]

end Sys2Proof.Machine
end

section
/-! PROOF. Index-register and memory instructions (spec/42_index_and_memory.md): the first three write `I`, bcd and
reg-dump store bytes from `I` up, and reg-load is the inverse of reg-dump on the registers. -/
namespace Sys2Proof.Machine

/-! ### The index register -/

/-- Settles O35: one write of `I` (`exec_of_setIndex`), of the address (`toNat_addressOperand`). -/
theorem loadIndexSetsIndex : Obligations.LoadIndexSetsIndex :=
  fun nnn _ => exec_of_setIndex rfl (toNat_addressOperand nnn)

/-- Settles O36: the sum goes to `I` (`toNat_add_byteOperand`), then the flag of the unwrapped sum to VF
(`toNat_indexOverflowFlag`). -/
theorem addToIndexFlagsUnwrappedSum : Obligations.AddToIndexFlagsUnwrappedSum := by
  intro x s
  refine ⟨_, rfl, completesAfter_advance rfl, toNat_add_byteOperand s.i (s.reg x), ?_,
    exec_sameRegsBut (i := .addToIndex x) rfl⟩
  rw [State.reg_report, State.reg_advance, State.reg_setFlag, if_pos rfl, toNat_indexOverflowFlag]

/-- Settles O37: one write of `I` (`exec_of_setIndex`), of the glyph's address (`toNat_glyphAddress`). -/
theorem fontCharAddressIsFiveTimes : Obligations.FontCharAddressIsFiveTimes := by
  intro x s
  obtain ⟨t, hrun, hend, hindex, hregs, -⟩ :=
    exec_of_setIndex (i := .fontCharAddress x) (s := s) rfl (toNat_glyphAddress (s.reg x))
  exact ⟨t, hrun, hend, hindex, hregs⟩

/-! ### Stores and loads -/

/-- Settles O38: a store of the three digits (`exec_of_store`), which are the decimal ones (`toNat_bcdDigits`). -/
theorem bcdStoresDecimalDigits : Obligations.BcdStoresDecimalDigits := by
  intro x s hwf hlo hhi
  have hlen := length_bcdDigits (s.reg x)
  obtain ⟨t, hrun, hend, hin, hout, hindex, hregs⟩ :=
    exec_of_store (i := .bcd x) (execBcd_of_writable x s hlo (by omega)) hwf hlo (by omega)
  obtain ⟨hhundreds, htens, hones⟩ := toNat_bcdDigits (s.reg x)
  exact ⟨t, hrun, hend, (congrArg _ (hin 0 (by omega))).trans hhundreds, (congrArg _ (hin 1 (by omega))).trans htens,
    (congrArg _ (hin 2 (by omega))).trans hones, fun a ha => hout a (by omega), hindex, hregs⟩

/-- Settles O39: a store of `V[0]` to `V[x]` (`exec_of_store`), whose byte `k` is `V[k]` (`State.getElem_regsUpTo`). -/
theorem regDumpStoresRegisters : Obligations.RegDumpStoresRegisters := by
  intro x s hwf hlo hhi
  have hlen := s.length_regsUpTo x
  obtain ⟨t, hrun, hend, hin, hout, hindex, hregs⟩ :=
    exec_of_store (i := .regDump x) (execRegDump_of_writable x s hlo (by omega)) hwf hlo (by omega)
  refine ⟨t, hrun, hend, fun k hk => ?_, fun a ha => hout a (by omega), hindex, hregs⟩
  have hk' : k.val < (s.regsUpTo x).length := by rw [hlen]; exact Nat.lt_succ_of_le hk
  exact (hin k.val hk').trans (s.getElem_regsUpTo x k.val hk')

/-- Settles O40: reg-load inside memory completes with its bytes in the registers (`execRegLoad_of_readable`,
`State.reg_setRegsFrom_bytes`), and a write of registers is a write of nothing else (`State.setRegsFrom_frame`). -/
theorem regLoadLoadsRegisters : Obligations.RegLoadLoadsRegisters := by
  intro x s hhi
  have hrun : exec (.regLoad x) s = _ := execRegLoad_of_readable x s (by omega)
  have hregs := s.reg_setRegsFrom_bytes s.i.toNat x
  obtain ⟨v, hv⟩ := State.setRegsFrom_frame (s.bytes s.i.toNat (x.val + 1)) s 0
  rw [hv] at hrun hregs
  exact ⟨_, hrun, completesAfter_advance rfl, hregs, rfl, fun _ => rfl⟩

/-- Settles O41: the dump keeps `I` (`regDumpStoresRegisters`), so that the load reads back the bytes stored for `V[0]`
to `V[x]`; the registers above are kept by both (`regLoadLoadsRegisters`). -/
theorem dumpThenLoadRestoresRegisters : Obligations.DumpThenLoadRestoresRegisters := by
  intro x s hwf hlo hhi
  obtain ⟨t, hdump, ⟨htend, -⟩, hstored, -, hindex, hkept⟩ := regDumpStoresRegisters x s hwf hlo hhi
  obtain ⟨u, hload, ⟨huend, -⟩, hloaded, -⟩ := regLoadLoadsRegisters x t (hindex ▸ hhi)
  refine ⟨t, u, hdump, hload, htend, huend, fun k => ?_⟩
  rw [hloaded k, hindex]
  split
  · next hk => exact hstored k hk
  · exact hkept k List.not_mem_nil

end Sys2Proof.Machine
end

section
/-! SUPPORT. Display instructions (spec/43_display.md): a sprite acts on the pixels it covers, each once, and what a
draw that completes leaves in the display and in VF. -/
namespace Sys2Proof.Machine

/-! ### XOR of pixels, none listed twice -/

/-- A listed pixel is inverted, every other is kept. -/
theorem px_xorPixels {ts : List (Row × Column)} (hts : ts.Nodup) (d : Display) (r : Row) (c : Column) :
    (xorPixels d ts).1.px r c = if (r, c) ∈ ts then !d.px r c else d.px r c := by
  rw [xorPixels, px_foldl_flipPixel, hts.count]
  split <;> simp

/-- A collision is a listed pixel that was set. -/
theorem hit_xorPixels_iff {ts : List (Row × Column)} (hts : ts.Nodup) (d : Display) :
    (xorPixels d ts).2 = true ↔ ∃ r c, (r, c) ∈ ts ∧ d.px r c = true := by
  rw [xorPixels, hit_foldl_flipPixel ts hts, Bool.false_or, List.any_eq_true, Prod.exists]

theorem collisionFlag_eq_one_iff (hit : Bool) : collisionFlag hit = 1 ↔ hit = true := by
  cases hit <;> decide

/-! ### The pixels a draw acts on -/

/-- draw acts on the pixels its sprite covers, and on no other. -/
theorem mem_drawTargets_iff (s : State) (x y : Reg) (n : Fin 16) (r : Row) (c : Column) :
    (r, c) ∈ s.drawTargets x y n ↔ s.spriteCovers x y n r c := by
  refine (mem_spriteTargets _ _ r c _ _).trans ?_
  simp only [targetColumn_eq_some_iff, State.spriteCovers, List.getElem_map, List.getElem_range, List.length_map,
    List.length_range, exists_prop]

/-- A sprite collides with a display when it covers a set pixel. -/
theorem hit_drawTargets_iff (s : State) (x y : Reg) (n : Fin 16) (d : Display) :
    (xorPixels d (s.drawTargets x y n)).2 = true ↔ ∃ r c, s.spriteCovers x y n r c ∧ d.px r c = true := by
  simp only [← mem_drawTargets_iff]
  exact hit_xorPixels_iff (nodup_spriteTargets ..) d

/-- The pixels depend on the coordinates, the count, the row bytes and the policy only. -/
theorem drawTargets_congr {s t : State} {x y x' y' : Reg} {n : Fin 16} (hwrap : t.cfg.wrapX = s.cfg.wrapX)
    (hx : t.reg x' = s.reg x) (hy : t.reg y' = s.reg y)
    (hrows : ∀ k < n.val, t.byteAt (t.i.toNat + k) = s.byteAt (s.i.toNat + k)) :
    t.drawTargets x' y' n = s.drawTargets x y n := by
  have hbytes : t.bytes t.i.toNat n.val = s.bytes s.i.toNat n.val :=
    List.map_congr_left fun k hk => hrows k (List.mem_range.mp hk)
  rw [State.drawTargets, State.drawTargets, hwrap, hx, hy, hbytes]

/-! ### What a completed draw leaves -/

/-- A draw that completes has its rows inside memory. -/
theorem readable_of_exec_draw {x y : Reg} {n : Fin 16} {s t : State} (h : exec (.draw x y n) s = .next t)
    (ho : t.outcome = .normal) : n.val = 0 ∨ s.i.toNat + n.val ≤ 0x1000 := by
  by_contra hbad
  have hfault := execDraw_of_bad x y n s (by omega) (by omega)
  cases h.symm.trans hfault
  cases ho

/-- A draw that completes leaves the display with the sprite's pixels inverted, and the collision in VF. -/
theorem display_flag_of_exec_draw {x y : Reg} {n : Fin 16} {s t : State} (h : exec (.draw x y n) s = .next t)
    (ho : t.outcome = .normal) :
    t.d = (xorPixels s.d (s.drawTargets x y n)).1 ∧
      t.reg 15 = collisionFlag (xorPixels s.d (s.drawTargets x y n)).2 := by
  cases h.symm.trans (execDraw_of_readable x y n s (readable_of_exec_draw h ho))
  exact ⟨rfl, s.reg_setReg_self 15 _⟩

/-- A draw that completes inverts the pixels its sprite covers, and keeps the others. -/
theorem pixel_of_exec_draw {x y : Reg} {n : Fin 16} {s t : State} (h : exec (.draw x y n) s = .next t)
    (ho : t.outcome = .normal) (r : Row) (c : Column) :
    (s.spriteCovers x y n r c → t.pixel r c = !s.pixel r c) ∧
      (¬ s.spriteCovers x y n r c → t.pixel r c = s.pixel r c) := by
  have hpx : t.pixel r c = if (r, c) ∈ s.drawTargets x y n then !s.pixel r c else s.pixel r c := by
    rw [State.pixel, (display_flag_of_exec_draw h ho).1]
    exact px_xorPixels (nodup_spriteTargets ..) s.d r c
  rw [← mem_drawTargets_iff, hpx]
  exact ⟨fun hin => if_pos hin, fun hout => if_neg hout⟩

end Sys2Proof.Machine
end

section
/-! PROOF. Display instructions (spec/43_display.md): clear-screen, one draw, and a second draw of the same sprite. -/
namespace Sys2Proof.Machine

/-- Settles O43: the clear display has no pixel set (`State.pixel_clear`), and nothing else is written but `DF` and
`PC`. -/
theorem clearScreenClearsEveryPixel : Obligations.ClearScreenClearsEveryPixel := fun s =>
  ⟨_, rfl, completesAfter_advance rfl, s.pixel_clear, rfl, s.sameRegsBut_refl [], rfl, fun _ => rfl, rfl, rfl⟩

/-- Settles O44: a draw with its rows inside memory completes (`execDraw_of_readable`), inverts what it covers
(`pixel_of_exec_draw`), and its collision is a covered pixel that was set (`hit_drawTargets_iff`). -/
theorem drawFlipsCoveredPixels : Obligations.DrawFlipsCoveredPixels := by
  intro x y n s hrows
  have hrun : exec (.draw x y n) s = _ := execDraw_of_readable x y n s hrows
  have hflag := (display_flag_of_exec_draw hrun rfl).2
  have hhit := hit_drawTargets_iff s x y n s.d
  refine ⟨_, hrun, completesAfter_advance rfl, rfl, fun r c => (pixel_of_exec_draw hrun rfl r c).1,
    fun r c => (pixel_of_exec_draw hrun rfl r c).2, fun hset => ?_, fun hclear => ?_, exec_sameRegsBut hrun⟩
  · rw [hflag, hhit.mpr hset]
    rfl
  · have hno : (xorPixels s.d (s.drawTargets x y n)).2 = false := by
      rw [← Bool.not_eq_true, hhit]
      rintro ⟨r, c, hcov, hset⟩
      cases (hclear r c hcov).symm.trans hset
    rw [hflag, hno]
    rfl

/-- Settles O45: both draws invert the same pixels (`drawTargets_congr`), which gives the display back
(`xorPixels_xorPixels`), and the second one's collision is a drawn pixel set in the display between
(`hit_drawTargets_iff`). -/
theorem drawTwiceRestoresDisplay : Obligations.DrawTwiceRestoresDisplay := by
  intro x y x' y' n s t t' u hfirst htend hd hwrap hx hy hrows hsecond huend
  obtain ⟨htd, -⟩ := display_flag_of_exec_draw hfirst htend
  obtain ⟨hud, huflag⟩ := display_flag_of_exec_draw hsecond huend
  rw [drawTargets_congr hwrap hx hy hrows, hd] at hud huflag
  have hrestored : u.d = s.d := by rw [hud, htd, xorPixels_xorPixels]
  refine ⟨fun r c => by rw [State.pixel, State.pixel, hrestored], ?_⟩
  rw [huflag, collisionFlag_eq_one_iff]
  exact hit_drawTargets_iff s x y n t.d

end Sys2Proof.Machine
end

section
/-! SUPPORT. The lowest key that is down (spec/44_keypad_and_timers.md R162). -/
namespace Sys2Proof.Machine

/-- With every key up no key is the lowest. -/
theorem lowestKey_of_keysUp {s : State} (hup : ∀ k, s.keyDown k = false) : s.lowestKey = none := by
  rw [lowestKey_eq_none_iff]
  exact BitVec.eq_of_getLsbD_eq fun i hi => (hup ⟨i, hi⟩).trans BitVec.getLsbD_zero.symm

/-- A key is the lowest when it is down and every key below it is up. -/
theorem lowestKey_of_keyDown {s : State} {k : Key} (hk : s.keyDown k = true) (hlow : ∀ j < k, s.keyDown j = false) :
    s.lowestKey = some k.val :=
  (lowestKey_eq_some_iff s k.val).mpr ⟨k.isLt, hk, fun j hj => hlow ⟨j, hj.trans k.isLt⟩ hj⟩

/-- A key number fits a byte. -/
theorem toNat_ofNat_key (k : Key) : (BitVec.ofNat 8 k.val).toNat = k.val :=
  (BitVec.toNat_ofNat _ _).trans (Nat.mod_eq_of_lt (k.isLt.trans (by decide)))

end Sys2Proof.Machine
end

section
/-! PROOF. Keypad and timers (spec/44_keypad_and_timers.md): the key skips are skips on the level of their key,
wait-for-key is one register write once a key is down, and the timer instructions move one byte. -/
namespace Sys2Proof.Machine

/-- Settles O46: a key number passes the range test, and each of the two is a skip on the level of its key
(`onlyMovesTo_of_skipWhen`). -/
theorem keySkipsTestTheirKey : Obligations.KeySkipsTestTheirKey := by
  intro x k s hk
  have hlt : (s.reg x).toNat < 16 := hk ▸ k.isLt
  obtain rfl : k = ⟨(s.reg x).toNat, hlt⟩ := Fin.ext hk.symm
  exact ⟨onlyMovesTo_of_skipWhen (execSkipIfKeyPressed_of_lt x s hlt) Iff.rfl,
    onlyMovesTo_of_skipWhen (execSkipIfKeyNotPressed_of_lt x s hlt) (Bool.not_eq_true' _).to_iff⟩

/-- Settles O47: with every key up there is no lowest key (`lowestKey_of_keysUp`), and `PC` is written with what
stands there; else the lowest one is key `k` (`lowestKey_of_keyDown`), and its number is the one register write
(`exec_of_setReg`). -/
theorem waitForKeyCapturesLowestKey : Obligations.WaitForKeyCapturesLowestKey := by
  intro x s
  constructor
  · intro hup
    exact onlyMovesTo_of_setPc (w := s.pc) (execWaitForKey_of_none x s (lowestKey_of_keysUp hup)) rfl
  · intro k hk hlow
    have hrun := execWaitForKey_of_some x s (lowestKey_of_keyDown hk hlow)
    obtain ⟨t, hnext, hend, hreg, hkeep⟩ := exec_of_setReg (i := .waitForKey x) hrun
    exact ⟨t, hnext, hend, hreg ▸ toNat_ofNat_key k, hkeep⟩

/-- Settles O48: get-delay writes one register (`exec_of_setReg`) and no timer (`timerFrame`); the other two write their
timer alone. -/
theorem timerInstructionsMoveTheirByte : Obligations.TimerInstructionsMoveTheirByte := by
  intro x s
  refine ⟨?_, ?_, ?_⟩
  · obtain ⟨t, hrun, hend, hreg, hkeep⟩ := exec_of_setReg (i := .getDelay x) (s := s) rfl
    obtain ⟨hdelay, hsound⟩ := timerFrame _ s t hrun
    exact ⟨t, hrun, hend, hreg, hkeep, hdelay nofun, hsound nofun⟩
  · exact ⟨_, rfl, completesAfter_advance rfl, rfl, s.sameRegsBut_refl [], rfl⟩
  · exact ⟨_, rfl, completesAfter_advance rfl, rfl, s.sameRegsBut_refl [], rfl⟩

end Sys2Proof.Machine
end

section
/-! SUPPORT. Why an instruction ends with an outcome other than Normal (spec/60_exceptions.md R171 to
R174). -/
namespace Sys2Proof.Machine

/-- The reasons for an outcome other than Normal: a word that no row matches, a stack with no entry left to push or to
pop, an access outside its range (with the lowest bad address), and a register that names no key. -/
inductive Cause (s : State) : Instr → CycleOutcome → Prop where
  | unsupported (w : Word) : Cause s (.unsupported w) (.decodeFailure s.pc w)
  | overflow (nnn : BitVec 12) (hsp : s.sp.val = 16) : Cause s (.call nnn) (.stackFault .overflow s.pc)
  | underflow (hsp : s.sp.val = 0) : Cause s .ret (.stackFault .underflow s.pc)
  | read {i : Instr} {a : Word} (hlen : 0 < readLength i) (hout : 0x1000 < s.i.toNat + readLength i)
    (ha : a.toNat = max s.i.toNat 0x1000) : Cause s i (.accessFault .read a s.pc)
  | write {i : Instr} {a : Word} (hlen : 0 < storeLength i)
    (hout : s.i.toNat < 0x50 ∨ 0x1000 < s.i.toNat + storeLength i)
    (ha : a.toNat = if s.i.toNat < 0x50 then s.i.toNat else max s.i.toNat 0x1000) :
    Cause s i (.accessFault .write a s.pc)
  | key {i : Instr} {a : Word} (x : Reg) (hi : i = .skipIfKeyPressed x ∨ i = .skipIfKeyNotPressed x)
    (hx : 15 < (s.reg x).toNat) (ha : a.toNat = (s.reg x).toNat) : Cause s i (.accessFault .key a s.pc)

/-! ### What an instruction answers when there is a cause -/

theorem exec_of_unreadable {i : Instr} {s : State} (hlen : 0 < readLength i)
    (hout : 0x1000 < s.i.toNat + readLength i) :
    exec i s = raiseAccess { kind := .read, addr := max s.i.toNat 0x1000 } s := by
  cases i with
  | draw x y n => exact execDraw_of_bad x y n s hlen hout
  | regLoad x => exact execRegLoad_of_bad x s hout
  | _ => cases hlen

theorem exec_of_unwritable {i : Instr} {s : State} (hlen : 0 < storeLength i)
    (hout : s.i.toNat < 0x50 ∨ 0x1000 < s.i.toNat + storeLength i) :
    exec i s = raiseAccess
      { kind := .write, addr := if s.i.toNat < 0x50 then s.i.toNat else max s.i.toNat 0x1000 } s := by
  cases i with
  | bcd x => exact execBcd_of_bad x s hout
  | regDump x => exact execRegDump_of_bad x s hout
  | _ => cases hlen

theorem exec_of_noKey {i : Instr} {s : State} {x : Reg} (hi : i = .skipIfKeyPressed x ∨ i = .skipIfKeyNotPressed x)
    (hx : 15 < (s.reg x).toNat) : exec i s = raiseAccess { kind := .key, addr := (s.reg x).toNat } s := by
  rcases hi with rfl | rfl
  · exact execSkipIfKeyPressed_of_ge x s hx
  · exact execSkipIfKeyNotPressed_of_ge x s hx

/-- What an address below 2^16 reads as in the payload of an outcome (spec/60_exceptions.md R170). -/
theorem toNat_payload_of_lt {n : Nat} (h : n < 65536) : (BitVec.ofNat 16 n).toNat = n := Nat.mod_eq_of_lt h

theorem outcome_of_raiseAccess {k : AccessKind} {n : Nat} {a : Word} {s t : State}
    (h : raiseAccess { kind := k, addr := n } s = .next t) (ha : a.toNat = n) : t.outcome = .accessFault k a s.pc := by
  have haddr : BitVec.ofNat 16 n = a := by rw [← ha, BitVec.ofNat_toNat, BitVec.setWidth_eq]
  cases h
  exact congrArg (CycleOutcome.accessFault k · s.pc) haddr

/-- An instruction that meets a cause has its outcome. -/
theorem Cause.outcome_eq {i : Instr} {s t : State} {o : CycleOutcome} (hc : Cause s i o) (h : exec i s = .next t) :
    t.outcome = o := by
  cases hc with
  | unsupported w =>
    cases h
    rfl
  | overflow nnn hsp =>
    cases (execCall_of_full nnn s hsp).symm.trans h
    rfl
  | underflow hsp =>
    cases (execRet_of_empty s hsp).symm.trans h
    rfl
  | read hlen hout ha => exact outcome_of_raiseAccess ((exec_of_unreadable hlen hout).symm.trans h) ha
  | write hlen hout ha => exact outcome_of_raiseAccess ((exec_of_unwritable hlen hout).symm.trans h) ha
  | key x hi hx ha => exact outcome_of_raiseAccess ((exec_of_noKey hi hx).symm.trans h) ha

/-! ### What an instruction answers when there is no cause -/

theorem outcome_of_complete {r : Result} {u t : State} (hr : r = complete u) (h : r = .next t) : t.outcome = .normal := by
  cases hr.symm.trans h
  rfl

section
variable {i : Instr} {s : State} (hno : ∀ o, ¬ Cause s i o)
include hno

theorem readable_of_noCause : readLength i = 0 ∨ s.i.toNat + readLength i ≤ 0x1000 := by
  by_contra hbad
  have haddr := toNat_payload_of_lt (n := max s.i.toNat 0x1000) (by have := s.i_lt; omega)
  exact hno _ (.read (by omega) (by omega) haddr)

theorem writable_of_noCause : storeLength i = 0 ∨ 0x50 ≤ s.i.toNat ∧ s.i.toNat + storeLength i ≤ 0x1000 := by
  by_contra hbad
  have haddr := toNat_payload_of_lt (n := if s.i.toNat < 0x50 then s.i.toNat else max s.i.toNat 0x1000)
    (by have := s.i_lt; split <;> omega)
  exact hno _ (.write (by omega) (by omega) haddr)

theorem reg_lt_of_noCause (x : Reg) (hi : i = .skipIfKeyPressed x ∨ i = .skipIfKeyNotPressed x) :
    (s.reg x).toNat < 16 := by
  by_contra hbad
  have haddr := toNat_payload_of_lt (n := (s.reg x).toNat) (by have := s.reg_toNat_lt x; omega)
  exact hno _ (.key x hi (by omega) haddr)

end

/-- An instruction that meets no cause completes. -/
theorem exec_outcome_of_noCause {i : Instr} {s t : State} (h : exec i s = .next t) (hno : ∀ o, ¬ Cause s i o) :
    t.outcome = .normal := by
  cases i with
  | unsupported w => exact absurd (.unsupported w) (hno _)
  | call nnn =>
    have hsp : s.sp.val < 16 := Nat.lt_of_le_of_ne s.sp_le fun hfull => hno _ (.overflow nnn hfull)
    exact outcome_of_complete (execCall_of_lt nnn s hsp) h
  | ret =>
    have hsp : 0 < s.sp.val := Nat.pos_of_ne_zero fun hempty => hno _ (.underflow hempty)
    exact outcome_of_complete (execRet_of_pos s hsp) h
  | draw x y n => exact outcome_of_complete (execDraw_of_readable x y n s (readable_of_noCause hno)) h
  | regLoad x =>
    have hrange := (readable_of_noCause hno).resolve_left (Nat.succ_ne_zero _)
    exact outcome_of_complete (execRegLoad_of_readable x s hrange) h
  | bcd x =>
    obtain ⟨hlo, hhi⟩ := (writable_of_noCause hno).resolve_left (Nat.succ_ne_zero _)
    exact outcome_of_complete (execBcd_of_writable x s hlo hhi) h
  | regDump x =>
    obtain ⟨hlo, hhi⟩ := (writable_of_noCause hno).resolve_left (Nat.succ_ne_zero _)
    exact outcome_of_complete (execRegDump_of_writable x s hlo hhi) h
  | skipIfKeyPressed x =>
    exact outcome_of_complete (execSkipIfKeyPressed_of_lt x s (reg_lt_of_noCause hno x (.inl rfl))) h
  | skipIfKeyNotPressed x =>
    exact outcome_of_complete (execSkipIfKeyNotPressed_of_lt x s (reg_lt_of_noCause hno x (.inr rfl))) h
  | waitForKey x =>
    cases hk : s.lowestKey with
    | none => exact outcome_of_complete (execWaitForKey_of_none x s hk) h
    | some k => exact outcome_of_complete (execWaitForKey_of_some x s hk) h
  | _ => exact outcome_of_complete rfl h

/-- An outcome other than Normal is the one that has a cause. -/
theorem exec_outcome_iff_cause {i : Instr} {s t : State} (h : exec i s = .next t) {o : CycleOutcome} (ho : o ≠ .normal) :
    t.outcome = o ↔ Cause s i o := by
  refine ⟨?_, fun hc => hc.outcome_eq h⟩
  rintro rfl
  by_contra hno
  refine ho (exec_outcome_of_noCause h fun o hc => hno ?_)
  rwa [hc.outcome_eq h]

/-- Every instruction notes its own outcome in the record. -/
theorem exec_record {i : Instr} {s t : State} (h : exec i s = .next t) : t.record = s.record.note t.outcome := by
  cases exec_effect h <;> rfl

/-! ### The causes of each kind of outcome -/

theorem cause_decodeFailure_iff {s : State} {i : Instr} {pc w : Word} :
    Cause s i (.decodeFailure pc w) ↔ pc = s.pc ∧ i = .unsupported w := by
  constructor
  · rintro ⟨⟩
    exact ⟨rfl, rfl⟩
  · rintro ⟨rfl, rfl⟩
    exact .unsupported w

theorem cause_stackFault_iff {s : State} {i : Instr} {k : StackFaultKind} {pc : Word} :
    Cause s i (.stackFault k pc) ↔ pc = s.pc ∧
      ((k = .overflow ∧ s.sp.val = 16 ∧ ∃ nnn, i = .call nnn) ∨ (k = .underflow ∧ s.sp.val = 0 ∧ i = .ret)) := by
  constructor
  · intro hc
    cases hc with
    | overflow nnn hsp => exact ⟨rfl, .inl ⟨rfl, hsp, nnn, rfl⟩⟩
    | underflow hsp => exact ⟨rfl, .inr ⟨rfl, hsp, rfl⟩⟩
  · rintro ⟨rfl, ⟨rfl, hsp, nnn, rfl⟩ | ⟨rfl, hsp, rfl⟩⟩
    · exact .overflow nnn hsp
    · exact .underflow hsp

theorem cause_accessFault_iff {s : State} {i : Instr} {k : AccessKind} {a pc : Word} :
    Cause s i (.accessFault k a pc) ↔ pc = s.pc ∧
      ((k = .read ∧ 0 < readLength i ∧ 0x1000 < s.i.toNat + readLength i ∧ a.toNat = max s.i.toNat 0x1000) ∨
       (k = .write ∧ 0 < storeLength i ∧ (s.i.toNat < 0x50 ∨ 0x1000 < s.i.toNat + storeLength i) ∧
         a.toNat = if s.i.toNat < 0x50 then s.i.toNat else max s.i.toNat 0x1000) ∨
       (k = .key ∧ ∃ x, (i = .skipIfKeyPressed x ∨ i = .skipIfKeyNotPressed x) ∧ 15 < (s.reg x).toNat ∧
         a.toNat = (s.reg x).toNat)) := by
  constructor
  · intro hc
    cases hc with
    | read hlen hout ha => exact ⟨rfl, .inl ⟨rfl, hlen, hout, ha⟩⟩
    | write hlen hout ha => exact ⟨rfl, .inr (.inl ⟨rfl, hlen, hout, ha⟩)⟩
    | key x hi hx ha => exact ⟨rfl, .inr (.inr ⟨rfl, x, hi, hx, ha⟩)⟩
  · rintro ⟨rfl, ⟨rfl, hlen, hout, ha⟩ | ⟨rfl, hlen, hout, ha⟩ | ⟨rfl, x, hi, hx, ha⟩⟩
    · exact .read hlen hout ha
    · exact .write hlen hout ha
    · exact .key x hi hx ha

end Sys2Proof.Machine
end

section
/-! PROOF. The outcomes (spec/60_exceptions.md R170 to R177). -/
namespace Sys2Proof.Machine

/-- Settles O9: an outcome other than Normal is the one with a cause (`exec_outcome_iff_cause`), and each kind of outcome
has the causes the statement lists. -/
theorem outcomesOfInstructions : Obligations.OutcomesOfInstructions := by
  intro i s
  obtain ⟨t, h⟩ := exec_total i s
  exact ⟨t, h, exec_record h, fun _ _ => (exec_outcome_iff_cause h (by nofun)).trans cause_decodeFailure_iff,
    fun _ _ => (exec_outcome_iff_cause h (by nofun)).trans cause_stackFault_iff,
    fun _ _ _ => (exec_outcome_iff_cause h (by nofun)).trans cause_accessFault_iff⟩

/-- Settles O8: the cycle takes a fault at the fetch, which is a next state, or ends the instruction of the word fetched,
and every instruction answers one (`exec_total`). -/
theorem everyCycleAnswersNextState : Obligations.EveryCycleAnswersNextState := by
  intro s
  rcases Nat.lt_or_ge 0xFFE s.pc.toNat with hpc | hpc
  · exact ⟨_, step_of_gt s hpc⟩
  · obtain ⟨t, ht⟩ := exec_total
      (decodeWord (wordOfBytes (s.byteAt s.pc.toNat) (s.byteAt (s.pc.toNat + 1)))) s.beginCycle
    exact ⟨_, by rw [step_of_le s hpc, ht, endCycle_next]⟩

/-- Settles O13: after an instruction that did not fault the cycle ends in the tick of its state, and `countDown_toNat` is
the count; after one that did, in that state, with the timers as before (`exec_fault`); a fetch that faults runs
nothing (`step_of_gt`). -/
theorem tickCountsDownAndSoundsTone : Obligations.TickCountsDownAndSoundsTone := by
  refine ⟨fun s u hpc hrun => ⟨fun hok => ?_, fun hfault => ?_⟩, fun s hpc => ⟨_, step_of_gt s hpc, rfl, rfl, rfl⟩⟩
  · have hcount : ∀ b : Byte, (countDown b).toNat = if b.toNat = 0 then 0 else b.toNat - 1 := fun b => by
      rw [countDown_toNat]
      split <;> omega
    refine ⟨u.tick, ?_, hcount u.dt, hcount u.st, decide_eq_true_iff.trans BitVec.toNat_inj.symm, rfl⟩
    rw [step_of_le s hpc, hrun, endCycle_next, hok, if_neg Bool.false_ne_true]
  · have hu := exec_fault _ _ u hrun hfault
    refine ⟨?_, (congrArg State.dt hu).trans s.beginCycle_dt, (congrArg State.st hu).trans s.beginCycle_st,
      congrArg State.tone hu⟩
    rw [step_of_le s hpc, hrun, endCycle_next, if_pos hfault]

end Sys2Proof.Machine
end

section
/-! PROOF. Cycles that fault (spec/60_exceptions.md R176, R177): the fault a cycle takes depends on parts of the state
that it leaves alone. -/
namespace Sys2Proof.Machine

/-- The fault of a cycle: of the fetch, or of the instruction of the word fetched. -/
inductive CycleFault (s : State) : CycleOutcome → Prop where
  | fetch (hpc : 0xFFE < s.pc.toNat) : CycleFault s (.accessFault .fetch (BitVec.ofNat 16 s.pc.toNat) s.pc)
  | instruction {o : CycleOutcome} (hpc : s.pc.toNat ≤ 0xFFE) (ho : o.isFault = true)
    (hc : Cause s (decodeWord (wordOfBytes (s.byteAt s.pc.toNat) (s.byteAt (s.pc.toNat + 1)))) o) : CycleFault s o

/-- The causes look at no output of a cycle. -/
theorem Cause.of_outputs {i : Instr} {s : State} {o : CycleOutcome} (hc : Cause s i o) (df tone : Bool)
    (out : CycleOutcome) (record : FaultRecord) :
    Cause { s with df := df, tone := tone, outcome := out, record := record } i o := by
  cases hc with
  | unsupported w => exact .unsupported w
  | overflow nnn hsp => exact .overflow nnn hsp
  | underflow hsp => exact .underflow hsp
  | read hlen hout ha => exact .read hlen hout ha
  | write hlen hout ha => exact .write hlen hout ha
  | key x hi hx ha => exact .key x hi hx ha

theorem CycleFault.of_outputs {s : State} {o : CycleOutcome} (hf : CycleFault s o) (df tone : Bool)
    (out : CycleOutcome) (record : FaultRecord) :
    CycleFault { s with df := df, tone := tone, outcome := out, record := record } o := by
  cases hf with
  | fetch hpc => exact .fetch hpc
  | instruction hpc ho hc => exact .instruction hpc ho (hc.of_outputs df tone out record)

/-- A cycle with a fault takes it after phase 1, and nothing follows. -/
theorem CycleFault.step_eq {s : State} {o : CycleOutcome} (hf : CycleFault s o) : step s = raise o s.beginCycle := by
  cases hf with
  | fetch hpc => exact step_of_gt s hpc
  | instruction hpc ho hc =>
    obtain ⟨u, hu⟩ := exec_total
      (decodeWord (wordOfBytes (s.byteAt s.pc.toNat) (s.byteAt (s.pc.toNat + 1)))) s.beginCycle
    obtain rfl : u.outcome = o := (hc.of_outputs false false .normal s.record).outcome_eq hu
    rw [step_of_le s hpc, hu, endCycle_next, if_pos ho, raise_eq, ← exec_fault _ _ u hu ho]

/-- A cycle that ends in a fault had it. -/
theorem cycleFault_of_step {s t : State} (h : step s = .next t) (hf : t.outcome.isFault = true) :
    CycleFault s t.outcome := by
  rcases step_cases h with ⟨hpc, hraise⟩ | ⟨hpc, u, hu, rfl⟩
  · cases hraise
    exact .fetch hpc
  · have hout : (if u.outcome.isFault then u else u.tick).outcome = u.outcome := by split <;> rfl
    rw [hout] at hf ⊢
    have hne : u.outcome ≠ .normal := fun he => by rw [he] at hf; cases hf
    have hc := (exec_outcome_iff_cause hu hne).mp rfl
    exact .instruction hpc hf (hc.of_outputs s.df s.tone s.outcome s.record)

/-- Settles O11: the cycle takes its fault right after phase 1 (`CycleFault.step_eq`), which writes outputs only. -/
theorem faultingCycleHasNoEffect : Obligations.FaultingCycleHasNoEffect := by
  intro s t h hf
  have hraise := (cycleFault_of_step h hf).step_eq
  rw [h, raise_eq] at hraise
  exact Host.Outcome.next.inj hraise

/-- Settles O12: the state after a fault differs in outputs only (O11), so that it has the same fault
(`CycleFault.of_outputs`), whose outcome the record holds already (`note_note`). -/
theorem faultingCycleRepeats : Obligations.FaultingCycleRepeats := by
  intro s t h hf
  have hfault := cycleFault_of_step h hf
  have ht := faultingCycleHasNoEffect s t h hf
  generalize t.outcome = o at hfault ht
  subst ht
  rw [(hfault.of_outputs _ _ _ _).step_eq, raise_eq]
  simp only [State.beginCycle, note_note]

end Sys2Proof.Machine
end

section
/-! SUPPORT. The operations of the host between cycles (spec/70_reset_and_hazards.md R200 to R203): what each answers, and
that each keeps the invariant. Then what a cycle does to the keys, and at a halted program (R203, R210). -/
namespace Sys2Proof.Machine

/-! ### Reset and memory -/

/-- Zeroing the program region keeps the bytes below it. -/
theorem Memory.readByte_clearProgram_of_lt (font : Vector Byte Config.hw.fontSize) (m : Memory) {a : Nat} (h : a < 0x200) :
    readByte font (clearProgram m) a = readByte font m a := by
  simp only [readByte, lookup_clearProgram, if_pos h]

theorem Memory.readByte_clearProgram_of_le (font : Vector Byte Config.hw.fontSize) (m : Memory) {a : Nat} (h : 0x200 ≤ a) :
    readByte font (clearProgram m) a = 0 := by
  rw [readByte_of_program font _ h, lookup_clearProgram, if_neg (Nat.not_lt.mpr h)]
  rfl

@[simp] theorem reg_hostReset (s : State) (r : Reg) : (hostReset s).reg r = 0 := Vector.getElem_replicate r.isLt

@[simp] theorem stackEntry_hostReset (s : State) (k : StackIndex) : (hostReset s).stackEntry k = 0 :=
  Vector.getElem_replicate k.isLt

@[simp] theorem pixel_hostReset (s : State) (r : Row) (c : Column) : (hostReset s).pixel r c = false :=
  s.pixel_clear r c

@[simp] theorem keyDown_hostReset (s : State) (k : Key) : (hostReset s).keyDown k = false := BitVec.getLsbD_zero

theorem byteAt_hostReset_of_lt (s : State) {a : Nat} (h : a < 0x200) : (hostReset s).byteAt a = s.byteAt a :=
  Memory.readByte_clearProgram_of_lt s.cfg.font s.mem h

theorem byteAt_hostReset_of_le (s : State) {a : Nat} (h : 0x200 ≤ a) : (hostReset s).byteAt a = 0 :=
  Memory.readByte_clearProgram_of_le s.cfg.font s.mem h

/-! ### Loading -/

variable {bytes : List Byte}

/-- An image that fits is written from `0x200` up. -/
theorem loadProgram_of_le (s : State) (h : bytes.length ≤ 3584) :
    loadProgram bytes s = (.ok, { s with mem := Memory.writeRange s.mem 0x200 bytes }) :=
  if_neg (Nat.not_lt.mpr h)

/-- A longer one is refused. -/
theorem loadProgram_of_lt (s : State) (h : 3584 < bytes.length) : loadProgram bytes s = (.imageTooLarge, s) :=
  if_pos h

/-! ### The invariant -/

/-- Reset is silent and reports Normal, so that it takes no more than a canonical memory to give the invariant. -/
theorem inv_hostReset {s : State} (hwf : Memory.wf s.mem = true) : (hostReset s).Inv :=
  State.inv_report (s := hostReset s) (Memory.wf_clearProgram hwf) rfl Bool.noConfusion

theorem State.Inv.loadProgram {s : State} (h : s.Inv) (bytes : List Byte) : (loadProgram bytes s).2.Inv := by
  rcases Nat.lt_or_ge 3584 bytes.length with hlen | hlen
  · rwa [loadProgram_of_lt s hlen]
  · rw [loadProgram_of_le s hlen]
    exact { h with memory := Memory.wf_writeRange bytes h.memory (by omega) (by omega) }

theorem State.Inv.setKeys {s : State} (h : s.Inv) (k : BitVec 16) : (setKeys k s).Inv := { h with }

/-- Every event of the host keeps the invariant. -/
theorem State.Inv.handle {e : HostEvent} {s t : State} (hs : s.Inv) (h : handle e s = .next t) : t.Inv := by
  cases e with
  | cycle => exact stepKeepsInvariant s t hs h
  | reset =>
    cases h
    exact inv_hostReset hs.memory
  | loadProgram bytes =>
    cases h
    exact hs.loadProgram bytes
  | setKeys k =>
    cases h
    exact hs.setKeys k

/-! ### Cycles -/

/-- No cycle writes the key state. -/
theorem step_keys {s t : State} (h : step s = .next t) : t.keys = s.keys := by
  rcases step_cases h with ⟨_, hfault⟩ | ⟨_, u, hu, rfl⟩
  · cases hfault
    rfl
  · have hkeys : u.keys = s.keys := (exec_keys hu).trans s.beginCycle_keys
    split <;> exact hkeys

/-- A cycle of a halted program runs its jump, which writes to `PC` what stands there, and ticks. -/
theorem step_of_haltedAt {s : State} {a : BitVec 12} (h : s.haltedAt a) :
    step s = .next { s with df := false, dt := countDown s.dt, st := countDown s.st,
                            tone := decide (s.st = 1), outcome := .normal } := by
  obtain ⟨hfits, hpc, hword⟩ := h
  have htarget : addressOperand a = s.pc := BitVec.eq_of_toNat_eq ((toNat_addressOperand a).trans hpc.symm)
  have hrange : s.pc.toNat ≤ 0xFFE := by
    rw [Config.hw_insnBytes, Config.hw_memSize] at hfits
    omega
  have hjump : exec (.jump a) s.beginCycle = .next ((s.beginCycle.setPc s.pc).report .normal) := by
    rw [← htarget]
    rfl
  rw [step_of_le s hrange, hpc, hword, decodeWord_encode rfl, hjump]
  rfl

end Sys2Proof.Machine
end

section
/-! PROOF. Boot, the host's operations, and the end of a run (spec/70_reset_and_hazards.md). -/
namespace Sys2Proof.Machine

/-- Settles O53, by induction on how the state was reached: boot resets a canonical memory and loads an image, and every
event keeps the invariant (`State.Inv.handle`). -/
theorem reachableStatesMeetInvariant : Obligations.ReachableStatesMeetInvariant := by
  intro s hs
  induction hs with
  | boot cfg image s hwf => exact (inv_hostReset (s := construct cfg s) hwf).loadProgram image
  | event e s t _ h ih => exact ih.handle h

/-- Settles O55: reset replaces every field by its launch value, but for memory, where zeroing the program region decides
each byte by the side of `0x200` it is on. -/
theorem hostResetGivesLaunchValues : Obligations.HostResetGivesLaunchValues := fun s =>
  ⟨hostReset s, rfl, reg_hostReset s, rfl, rfl, rfl, stackEntry_hostReset s, pixel_hostReset s, rfl, rfl,
    keyDown_hostReset s, rfl, rfl, fun _ ha => byteAt_hostReset_of_lt s ha, fun _ ha _ => byteAt_hostReset_of_le s ha⟩

/-- Settles O56: an image that fits is a written range, which reads as the image inside and as before outside
(`Memory.readByte_writeRange_inside`, `Memory.readByte_writeRange_of_outside`). -/
theorem loadProgramCopiesOrRefuses : Obligations.LoadProgramCopiesOrRefuses := by
  intro bytes s hwf
  refine ⟨fun hlen => ?_, loadProgram_of_lt s⟩
  rw [loadProgram_of_le s hlen]
  exact ⟨rfl, Memory.readByte_writeRange_inside s.cfg.font bytes hwf (by omega) (by omega),
    Memory.readByte_writeRange_of_outside s.cfg.font bytes s.mem 0x200, rfl⟩

/-- Settles O57: `setKeys` writes `K` alone, and no cycle writes it (`step_keys`). -/
theorem keysStayAsTheHostSetThem : Obligations.KeysStayAsTheHostSetThem := by
  intro k s t u hset hcycle
  cases hset
  exact ⟨rfl, step_keys hcycle⟩

/-- Settles O58: the state after the cycle (`step_of_haltedAt`) has the `PC` and the memory that make it halted, and
`countDown_toNat` is the count. -/
theorem haltedProgramStaysHalted : Obligations.HaltedProgramStaysHalted := fun s _ h =>
  ⟨_, step_of_haltedAt h, h, countDown_toNat s.dt, countDown_toNat s.st, rfl⟩

end Sys2Proof.Machine
end
